-- ==== Sys2Proof/Word.lean ====
section
/-! DEFINITION. The widths of the VM core: a byte, a 32-bit word, a register number (`00_scope.md` R6, R7). -/

namespace Sys2Proof

/-- R7: an unsigned 8-bit value. -/
abbrev Byte := BitVec 8

/-- R6 (`XLEN`), R7: an unsigned 32-bit value; a register, an address, the instruction pointer. -/
abbrev Word := BitVec 32

/-- R6 (`NREGS`), R20: the number of one of the sixteen registers. -/
abbrev Reg := Fin 16

end Sys2Proof
end

