-- ==== Sys2Proof/Syntax.lean ====
section
/-! DEFINITION. The eight instructions (`30_encoding.md` R65), one constructor per row of the opcode table. A register
operand is the whole operand byte, 0 to 255, not masked (R23, R63): 16 to 255 are legal to encode. -/

namespace Sys2Proof

/-- R65: the closed instruction set. -/
inductive Instr where
  /-- R140 `move-if a, b, c`: destination, source, condition. -/
  | moveIf (a b c : Byte)
  /-- R150 `store a, b`: address register, value register. -/
  | store (a b : Byte)
  /-- R151 `load a, b`: destination, address register. -/
  | load (a b : Byte)
  /-- R170 `load-imm a, imm16`: destination, the 16 bits `concat(hi, lo)` of R64. -/
  | loadImm (a : Byte) (imm : BitVec 16)
  /-- R171 `sub a, b, c`: destination, minuend, subtrahend. -/
  | sub (a b c : Byte)
  /-- R190 `out r`: source. -/
  | out (r : Byte)
  /-- R210 `halt`. -/
  | halt
  /-- R191 `out-number r`: source. -/
  | outNumber (r : Byte)
  deriving DecidableEq, Repr

end Sys2Proof
end

