-- ==== Sys2Proof/WellFormed.lean ====
section
/-! DEFINITION. When an instruction names only registers that exist (`10_state.md` R22, R23; `40_execution_engine.md`
R104). An ill-formed instruction still decodes; running it is the error `NoReg`. -/

namespace Sys2Proof

/-- R104: the register operands of each opcode, in encoding order (`lo` and `hi` of load-imm are none). -/
def Instr.regOps : Instr → List Byte
  | .moveIf a b c => [a, b, c]
  | .store a b => [a, b]
  | .load a b => [a, b]
  | .loadImm a _ => [a]
  | .sub a b c => [a, b, c]
  | .out r => [r]
  | .halt => []
  | .outNumber r => [r]

/-- R22: "register index used by any instruction must be `< 16`". -/
abbrev Instr.WellFormed (i : Instr) : Prop :=
  ∀ k ∈ i.regOps, k.toNat < 16

end Sys2Proof
end

