-- ==== Sys2Proof/Decode.lean ====
section
/-! DEFINITION. The binary format (`30_encoding.md` R60–R67): opcode numbers, lengths, the decoder, and after it the
encoder, both written from the format table R62 and the opcode map R65; and the assembly notation of R68. -/

namespace Sys2Proof

/-- R61: the length in bytes that an opcode byte fixes; an opcode outside 1..8 has none. -/
def opcodeLength (op : Byte) : Option Nat :=
  match op.toNat with
  | 1 => some 4
  | 2 => some 3
  | 3 => some 3
  | 4 => some 4
  | 5 => some 4
  | 6 => some 2
  | 7 => some 1
  | 8 => some 2
  | _ => none

/-- R7: `concat(hi, lo)`, the 16-bit little-endian immediate of R64. -/
def concat16 (hi lo : Byte) : BitVec 16 :=
  hi ++ lo

/-- R64: the byte `lo` of a 16-bit immediate. -/
def immLo (imm : BitVec 16) : Byte :=
  imm.extractLsb' 0 8

/-- R64: the byte `hi` of a 16-bit immediate. -/
def immHi (imm : BitVec 16) : Byte :=
  imm.extractLsb' 8 8

/-- R8, R64: `sext_32` of the 16-bit immediate. PRESUMED (log 15): two's complement. -/
def sext32 (imm : BitVec 16) : Word :=
  imm.signExtend 32

/-- Why a byte sequence is no instruction. -/
inductive DecodeError where
  /-- R66, R102: the first byte is none of the opcodes 1..8. -/
  | wrongInstruction (op : Byte)
  /-- R103: the sequence ends before byte `n` of the instruction, which it would need. -/
  | missingByte (n : Nat)
  deriving DecidableEq, Repr

/-- R62: the one operand of format `R`. -/
def decodeR (f : Byte → Instr) : List Byte → Except DecodeError (Instr × List Byte)
  | r :: rest => .ok (f r, rest)
  | [] => .error (.missingByte 1)

/-- R62: the two operands of format `RR`. -/
def decodeRR (f : Byte → Byte → Instr) : List Byte → Except DecodeError (Instr × List Byte)
  | a :: b :: rest => .ok (f a b, rest)
  | [_] => .error (.missingByte 2)
  | [] => .error (.missingByte 1)

/-- R62: the three operand bytes of the formats `RRR` and `RI`. -/
def decodeRRR (f : Byte → Byte → Byte → Instr) : List Byte → Except DecodeError (Instr × List Byte)
  | a :: b :: c :: rest => .ok (f a b c, rest)
  | [_, _] => .error (.missingByte 3)
  | [_] => .error (.missingByte 2)
  | [] => .error (.missingByte 1)

/-- R65, R67: the instruction at the head of a byte sequence and the bytes after it. The opcode alone selects the
instruction; an illegal opcode is refused before any operand byte is looked at (R102). -/
def decode : List Byte → Except DecodeError (Instr × List Byte)
  | [] => .error (.missingByte 0)
  | op :: rest =>
    match op.toNat with
    | 1 => decodeRRR .moveIf rest
    | 2 => decodeRR .store rest
    | 3 => decodeRR .load rest
    | 4 => decodeRRR (fun a lo hi => .loadImm a (concat16 hi lo)) rest
    | 5 => decodeRRR .sub rest
    | 6 => decodeR .out rest
    | 7 => .ok (.halt, rest)
    | 8 => decodeR .outNumber rest
    | _ => .error (.wrongInstruction op)

/-- R62, R65: the bytes of an instruction in address order. -/
def encode : Instr → List Byte
  | .moveIf a b c => [0x01#8, a, b, c]
  | .store a b => [0x02#8, a, b]
  | .load a b => [0x03#8, a, b]
  | .loadImm a imm => [0x04#8, a, immLo imm, immHi imm]
  | .sub a b c => [0x05#8, a, b, c]
  | .out r => [0x06#8, r]
  | .halt => [0x07#8]
  | .outNumber r => [0x08#8, r]

/-- R60: the length of the longest instruction. -/
def maxLength : Nat := 4

/-- The bytes, first at the lowest address, of the instruction whose first `nbits` bits are those of `w`, numbered
from the least significant bit of byte 0, and whose later bits up to the longest instruction are 0. -/
def tableBytes (nbits w : Nat) : List Byte :=
  (List.range maxLength).map fun k => BitVec.ofNat 8 (w % 2 ^ nbits / 256 ^ k)

/-- The instruction the decoder reads from a word numbered as `opcode_table.json` numbers it. -/
def decodeTableWord (nbits w : Nat) : Option Instr :=
  match decode (tableBytes nbits w) with
  | .ok (i, _) => some i
  | .error _ => none

/-- R68, D9: a register operand in assembly, `r` and its decimal index. -/
def asmReg (k : Byte) : String :=
  "r" ++ toString k.toNat

/-- R68, D9: the notation the spec writes its examples in; the immediate as a signed decimal. -/
def Instr.asm : Instr → String
  | .moveIf a b c => "move-if " ++ asmReg a ++ ", " ++ asmReg b ++ ", " ++ asmReg c
  | .store a b => "store " ++ asmReg a ++ ", " ++ asmReg b
  | .load a b => "load " ++ asmReg a ++ ", " ++ asmReg b
  | .loadImm a imm => "load-imm " ++ asmReg a ++ ", " ++ toString imm.toInt
  | .sub a b c => "sub " ++ asmReg a ++ ", " ++ asmReg b ++ ", " ++ asmReg c
  | .out r => "out " ++ asmReg r
  | .halt => "halt"
  | .outNumber r => "out-number " ++ asmReg r

end Sys2Proof
end

