-- ==== Sys2Proof/Config.lean ====
section
/-! DEFINITION. What construction fixes: the three parameters the spec leaves open (`00_scope.md` R6, D1, D4, D5).
The spec leaves no result of an instruction undefined, so there is no opaque constant here; the sink's free answers are
the field `sink` of `State`. -/

namespace Sys2Proof

/-- R106, D4: what an IP advance past `2^32 - 1` does. -/
inductive IpAdvanceOverflow where
  /-- The step ends with the abort `IpOverflow`. -/
  | abort
  /-- The instruction pointer wraps modulo `2^32`. -/
  | wrap
  deriving DecidableEq, Repr

/-- R190, D5: which bytes `out` sends for a character of 0x80 or more. -/
inductive OutByteEncoding where
  /-- The one byte itself. -/
  | raw
  /-- The two-byte UTF-8 form of the code point. -/
  | utf8
  deriving DecidableEq, Repr

/-- R6: the parameters of one machine, fixed at construction; no register, and no step changes them (R30). -/
structure Config where
  /-- `MEM_SIZE`, the capacity in bytes (R33, D1). -/
  memSize : Nat
  /-- `IP_ADVANCE_OVERFLOW` (D4). -/
  ipAdvanceOverflow : IpAdvanceOverflow
  /-- `OUT_BYTE_ENCODING` (D5). -/
  outByteEncoding : OutByteEncoding
  deriving DecidableEq, Repr

/-- R6: the spec's default values. DESIGN CHOICE (logs 1, 3 and 4): they are D1, D4 and D5, the spec's own decisions;
unsafe, so statements quantify over `Config`. -/
def Config.default : Config :=
  ⟨4096, .abort, .raw⟩

/-- R6, D1, C4: the constraint `1 ≤ MEM_SIZE ≤ 2^32 - 1`. -/
abbrev Config.wf (c : Config) : Prop :=
  1 ≤ c.memSize ∧ c.memSize ≤ 2 ^ 32 - 1

end Sys2Proof
end

