-- ==== Sys2Proof/Machine/State.lean ====
section
/-! DEFINITION. Everything the spec gives the machine (`10_state.md` R20–R36), as plain data, its reset, and the reasons
a step can stop (`60_exceptions.md` R300–R307, R324). Three fields are the MODEL's own (`sink`, `output`, `signal`):
the host's form of a step has one argument and one next state, and the spec's step also takes a sink and returns a halt
signal (R100). -/

namespace Sys2Proof.Machine

/-- R33, R35: memory, as the bytes that differ from 0. An unlisted address reads 0, since construction fills memory
with zeros (R35). `Memory.wf` is its canonical form. -/
abbrev Memory := List Host.Cell

/-- R33, R51: addresses strictly rise, no byte listed is 0 (what an unlisted address reads as), and every listed
address lies below the capacity. -/
abbrev Memory.wf (size : Nat) (m : Memory) : Prop :=
  m.Pairwise (fun x y => x.1 < y.1) ∧ ∀ c ∈ m, c.2 ≠ 0#8 ∧ c.1 < size

/-- R321, R322, R324: what the supplied sink will answer to the coming write requests. A run ends at its first `fail`
(R110), so these are all the sequences of answers a run can meet; the draw of D7 is which of them the state holds.
DESIGN CHOICE (log 7): the answers are plain data of the state. -/
inductive Sink where
  /-- Every write request is answered `ok`. -/
  | accepting
  /-- The next `after` requests are answered `ok`, the one after them `fail`, the sink having received the first
  `kept` bytes of it (all of it when it is shorter). -/
  | failing (after kept : Nat)
  /-- The next `after` requests are answered `ok`, the one after them is never answered (R324). -/
  | silent (after : Nat)
  deriving DecidableEq, Repr

/-- R107: the halt signal of a successful step. -/
inductive Signal where
  /-- The halt signal is false. -/
  | cont
  /-- The halt signal is true. -/
  | halt
  deriving DecidableEq, Repr

/-- R36: the registers and the memory; with the parameters of R6 (log 2) and the model's own `sink` (log 7),
`output` (log 10) and `signal` (log 11). -/
structure State where
  /-- R6, R30: the parameters, which no step changes. -/
  cfg : Config
  /-- R20, R21: the sixteen registers; `x[0]` is the instruction pointer. -/
  regs : Vector Word 16
  /-- R33: the memory. -/
  mem : Memory
  /-- R320: what the supplied sink will answer; the model's field, no state of the core. -/
  sink : Sink
  /-- R115, R321: the bytes the sink has accepted in this run, oldest first; the model's field. -/
  output : List Byte
  /-- R100, R107: the halt signal the last successful step returned; the model's field, which no step reads. -/
  signal : Signal
  deriving DecidableEq, Repr

/-- R34, R35, R402: the machine construction makes from the empty buffer, with the default parameters (logs 1, 3, 4)
and a sink that accepts (log 7). A program is loaded from outside the machine (log 14). -/
def State.reset : State :=
  { cfg := Config.default
    regs := Vector.replicate 16 0#32
    mem := []
    sink := .accepting
    output := []
    signal := .cont }

/-- The reasons a step or construction can stop: the error taxonomy of R300, the aborts of R307, and the stuck state
of R324. -/
inductive Fault where
  /-- R301, ordinal 0: raised by construction only, for a buffer longer than the capacity. Safe: the spec's error. -/
  | memoryOverflow
  /-- R302, ordinal 1: raised by fetch for an opcode byte outside 1..8. Safe: the spec's error. -/
  | wrongInstruction (op : Byte)
  /-- R303, ordinal 2: raised by every instruction but halt, and by set-register, for a register index of 16 or more;
  the payload is the largest one. Safe: the spec's error. -/
  | noReg (index : Nat)
  /-- R304, ordinal 3: raised by fetch (the instruction pointer), store and load (their address) outside memory. Safe
  but for an access that straddles the end of memory, where it is D2's choice (log 5): unsafe there for a claim
  about which error it is. -/
  | noMem (addr : Word)
  /-- R305, ordinal 4: raised by out and out-number when the sink answers `fail`. The spec's error has no payload:
  `received` is what the sink got of the refused request (R322), which belongs to the observation (log 8). Safe. -/
  | outputError (received : List Byte)
  /-- R306, ordinal 5: reserved, raised by nothing. Safe. -/
  | nonExistingInstruction
  /-- R306, ordinal 6: reserved, raised by nothing. Safe. -/
  | nonExistingFormat
  /-- R306, ordinal 7: reserved, raised by nothing. Safe. -/
  | readPastMemoryEnd
  /-- R307, R103: the abort raised by fetch when operand byte `addr` lies past the end of memory. Safe (D3, log 6). -/
  | operandPastEnd (addr : Nat)
  /-- R307, R106: the abort raised by the IP advance past `2^32 - 1` under `IP_ADVANCE_OVERFLOW = abort`; the payload
  is `x[0]` after the effect. Safe (D4, log 3). -/
  | ipOverflow (ip : Word)
  /-- R324: raised by out and out-number when the sink never answers: the step does not end. Safe (log 9). -/
  | sinkNeverAnswers
  deriving DecidableEq, Repr

/-- Why the model gives a step or a host operation no meaning. -/
inductive Refusal where
  /-- An instruction without a meaning yet; no arm of exec uses it. Safe. -/
  | notModelled (mnemonic : String)
  /-- R119, D10: raised by the host's IP-adjust when the result leaves `[0, 2^32)`; the host is assumed never to make
  such a call. Safe for the step, which never raises it; unsafe for hosts that make the call (log 16). -/
  | ipAdjustOutOfRange
  deriving DecidableEq, Repr

/-- R100: the outcomes of a step or a host operation. -/
abbrev Result := Host.Outcome State Fault Refusal

end Sys2Proof.Machine
end

