-- ==== Sys2Proof/Machine/Ops.lean ====
section
/-! DEFINITION. The named operations over registers, memory, the sink and the outcome of a step: everything the
instructions share (`20_memory.md`, `40_execution_engine.md` R105–R107, `60_exceptions.md`). -/

namespace Sys2Proof.Machine

/-! ## Memory -/

/-- R9: the byte `M[a]`; an address with no entry reads 0 (R35). -/
def Memory.read : Memory → Nat → Byte
  | [], _ => 0#8
  | (k, v) :: m, a => if k = a then v else Memory.read m a

/-- Places a cell before the first one with a larger address. -/
def Memory.place : Memory → Nat → Byte → Memory
  | [], a, v => [(a, v)]
  | (k, w) :: m, a, v => if a < k then (a, v) :: (k, w) :: m else (k, w) :: Memory.place m a v

/-- Removes what is listed at an address. -/
def Memory.clear (m : Memory) (a : Nat) : Memory :=
  m.filter fun c => c.1 != a

/-- R43: `M[a] <- v` in canonical form: writing 0 leaves no entry. -/
def Memory.write (m : Memory) (a : Nat) (v : Byte) : Memory :=
  if v = 0#8 then m.clear a else (m.clear a).place a v

/-- The bytes stored one after another from an address on (R35: construction copies a buffer). -/
def Memory.writeBytes : Memory → Nat → List Byte → Memory
  | m, _, [] => m
  | m, a, b :: bs => Memory.writeBytes (m.write a b) (a + 1) bs

/-- R43, R44: byte `i` of a word counted from the least significant end. -/
def wordByte (v : Word) (i : Nat) : Byte :=
  v.extractLsb' (8 * i) 8

/-- R42, R44: `concat(b3, b2, b1, b0)`. -/
def wordOfBytes (b0 b1 b2 b3 : Byte) : Word :=
  b3 ++ b2 ++ b1 ++ b0

/-- R42: `MemRead(a, 4)`. -/
def Memory.readWord (m : Memory) (a : Nat) : Word :=
  wordOfBytes (m.read a) (m.read (a + 1)) (m.read (a + 2)) (m.read (a + 3))

/-- R43: `MemWrite(a, 4, v)`. -/
def Memory.writeWord (m : Memory) (a : Nat) (v : Word) : Memory :=
  m.writeBytes a [wordByte v 0, wordByte v 1, wordByte v 2, wordByte v 3]

/-! ## Registers -/

/-- R9, R20: reads `x[r]`. None is hardwired (R22). -/
def State.reg (s : State) (r : Reg) : Word :=
  s.regs[r.val]

/-- R9, R22: `x[r] <- v`. -/
def State.setReg (s : State) (r : Reg) (v : Word) : State :=
  { s with regs := s.regs.set r.val v }

/-- R21: the instruction pointer is `x[0]`. -/
def State.ip (s : State) : Word :=
  s.reg 0

/-- R9: the byte of memory at an address of the state. -/
def State.byte (s : State) (a : Nat) : Byte :=
  s.mem.read a

/-- R33: the state with another memory. -/
def State.setMem (s : State) (m : Memory) : State :=
  { s with mem := m }

/-- R321: the state after the sink has accepted a write request. -/
def State.sent (s : State) (later : Sink) (bytes : List Byte) : State :=
  { s with sink := later, output := s.output ++ bytes }

/-! ## Outcomes -/

/-- R9, R310: `raise` and `abort`. Taking an error is ending the step with it: no register is saved, no mode changes, no
vector is taken and the state stays as it was (R108), so the outcome carries the reason alone. There is no return from
an error (R311). -/
def raise (f : Fault) : Result :=
  .fault f

/-- R9: pseudocode statements run in order, and nothing after a `raise` happens. -/
def andThen (o : Result) (next : State → Result) : Result :=
  match o with
  | .next s => next s
  | .fault f => .fault f
  | .refused r => .refused r

/-- R106: the IP advance, an exact sum added to what the effect left in `x[0]`; past `2^32 - 1` the parameter decides
(D4, log 3). -/
def advance (len : Nat) (s : State) : Result :=
  let newip := s.ip.toNat + len
  if newip < 2 ^ 32 then .next (s.setReg 0 (BitVec.ofNat 32 newip))
  else
    match s.cfg.ipAdvanceOverflow with
    | .abort => raise (.ipOverflow s.ip)
    | .wrap => .next (s.setReg 0 (BitVec.ofNat 32 (newip - 2 ^ 32)))

/-- R107: the halt signal a completed step returns. -/
def returnSignal (sig : Signal) (s : State) : State :=
  { s with signal := sig }

/-- R106, R107: the end of every successful step, after the effect. -/
def finish (len : Nat) (sig : Signal) (s : State) : Result :=
  andThen (advance len s) fun t => .next (returnSignal sig t)

/-! ## Data accesses -/

/-- R46, D2: the four bytes from an address on are all in memory (exact sum; log 5). -/
abbrev State.InRange (s : State) (addr : Word) : Prop :=
  addr.toNat < s.cfg.memSize ∧ addr.toNat + 4 ≤ s.cfg.memSize

/-- R150: the checked store of a word. A failing store writes nothing (R49). -/
def storeWord (addr v : Word) (s : State) : Result :=
  if s.InRange addr then .next (s.setMem (s.mem.writeWord addr.toNat v))
  else raise (.noMem addr)

/-- R151: the checked load of a word into a register. -/
def loadWord (d : Reg) (addr : Word) (s : State) : Result :=
  if s.InRange addr then .next (s.setReg d (s.mem.readWord addr.toNat))
  else raise (.noMem addr)

/-! ## The sink -/

/-- R321: the sink's answer to one write request. -/
inductive SinkAnswer where
  /-- It accepted the whole request; what it will answer after that. -/
  | ok (later : Sink)
  /-- It refused the request, having received the first `kept` bytes (R322). -/
  | fail (kept : Nat)
  /-- It never answers (R324). -/
  | never
  deriving DecidableEq, Repr

/-- R321, R322, R324: the answer to the next write request. -/
def Sink.answer : Sink → SinkAnswer
  | .accepting => .ok .accepting
  | .failing 0 kept => .fail kept
  | .failing (n + 1) kept => .ok (.failing n kept)
  | .silent 0 => .never
  | .silent (n + 1) => .ok (.silent n)

/-- R9, R321: `emit(bytes)`, one write request of the whole string; on `ok` the bytes are appended to what the sink has
accepted, on `fail` the step is the error `OutputError` (R305). -/
def emit (bytes : List Byte) (s : State) : Result :=
  match s.sink.answer with
  | .ok later => .next (s.sent later bytes)
  | .fail kept => raise (.outputError (bytes.take kept))
  | .never => raise .sinkNeverAnswers

end Sys2Proof.Machine
end

