-- ==== Sys2Proof/Machine/Operands.lean ====
section
/-! DEFINITION. The operand forms: register operand bytes and their validation (`40_execution_engine.md` R104), and the
byte strings the output instructions send (`44_output.md` R190, R192). -/

namespace Sys2Proof.Machine

/-- R23, R63: the register a whole operand byte names; 16 and above name none. -/
def regOf (k : Byte) : Option Reg :=
  if h : k.toNat < 16 then some ⟨k.toNat, h⟩ else none

/-- R63: the operand byte that names a register. -/
def regByte (r : Reg) : Byte :=
  BitVec.ofNat 8 r.val

/-- R104: `max(bad)` with `bad` the register operands of 16 and more. -/
def maxOffending (ks : List Byte) : Nat :=
  ((ks.map BitVec.toNat).filter fun k => 16 ≤ k).foldr max 0

/-- R104: validates one register operand and hands on its register. -/
def withReg (a : Byte) (effect : Reg → Result) : Result :=
  match regOf a with
  | some ra => effect ra
  | none => raise (.noReg (maxOffending [a]))

/-- R104: validates two register operands and hands on their registers. -/
def withReg2 (a b : Byte) (effect : Reg → Reg → Result) : Result :=
  match regOf a, regOf b with
  | some ra, some rb => effect ra rb
  | _, _ => raise (.noReg (maxOffending [a, b]))

/-- R104: validates three register operands and hands on their registers. -/
def withReg3 (a b c : Byte) (effect : Reg → Reg → Reg → Result) : Result :=
  match regOf a, regOf b, regOf c with
  | some ra, some rb, some rc => effect ra rb rc
  | _, _, _ => raise (.noReg (maxOffending [a, b, c]))

/-- R7: `low8(v)`. -/
def low8 (v : Word) : Byte :=
  v.extractLsb' 0 8

/-- R190: the bytes `out` sends for a character. PRESUMED (log 13): the two-byte UTF-8 form of 0x80 to 0xFF. -/
def charBytes (enc : OutByteEncoding) (ch : Byte) : List Byte :=
  match enc with
  | .raw => [ch]
  | .utf8 => if ch.toNat < 0x80 then [ch] else [0xC0#8 + (ch >>> 6), 0x80#8 + (ch &&& 0x3F#8)]

/-- R192: the byte of one decimal digit. PRESUMED (log 12): ASCII. -/
def digitByte (d : Nat) : Byte :=
  BitVec.ofNat 8 (0x30 + d)

/-- R192: the decimal digits of a natural number below `10 ^ fuel`, most significant first, `0` as one digit. -/
def digits : Nat → Nat → List Byte
  | 0, _ => []
  | fuel + 1, n => if n < 10 then [digitByte n] else digits fuel (n / 10) ++ [digitByte (n % 10)]

/-- R192: `dec(n)` for `-2^31 ≤ n < 2^31` (ten digits suffice). -/
def dec (n : Int) : List Byte :=
  if n < 0 then 0x2D#8 :: digits 10 n.natAbs else digits 10 n.natAbs

/-- R8, R191: `signed32(v)`. PRESUMED (log 15): two's complement. -/
def signed32 (v : Word) : Int :=
  v.toInt

end Sys2Proof.Machine
end

