-- ==== Sys2Proof/Machine/Arithmetic.lean ====
section
/-! DEFINITION. Load immediate and subtract (`43_immediate_arithmetic.md`). -/

namespace Sys2Proof.Machine

/-- R170: `x[a] <- sext_32(concat(hi, lo))`. -/
def execLoadImm (a : Byte) (imm : BitVec 16) (s : State) : Result :=
  withReg a fun ra => finish 4 .cont (s.setReg ra (sext32 imm))

/-- R171: `x[a] <- x[b] -32 x[c]`, wrapping, never an error. -/
def execSub (a b c : Byte) (s : State) : Result :=
  withReg3 a b c fun ra rb rc => finish 4 .cont (s.setReg ra (s.reg rb - s.reg rc))

end Sys2Proof.Machine
end

