-- ==== Sys2Proof/Machine/Halt.lean ====
section
/-! DEFINITION. Halt (`45_halt.md`). -/

namespace Sys2Proof.Machine

/-- R210: no effect beyond the common cycle; the step returns `Halt`. -/
def execHalt (s : State) : Result :=
  finish 1 .halt s

end Sys2Proof.Machine
end

