-- ==== Sys2Proof/Machine/LoadStore.lean ====
section
/-! DEFINITION. Loads and stores (`42_load_store.md`): the one addressing mode is register indirect, no offset. -/

namespace Sys2Proof.Machine

/-- R150: `MemWrite(x[a], 4, x[b])`. -/
def execStore (a b : Byte) (s : State) : Result :=
  withReg2 a b fun ra rb => andThen (storeWord (s.reg ra) (s.reg rb) s) (finish 3 .cont)

/-- R151: `x[a] <- MemRead(x[b], 4)`; with `a = 0` an indirect jump (R142). -/
def execLoad (a b : Byte) (s : State) : Result :=
  withReg2 a b fun ra rb => andThen (loadWord ra (s.reg rb) s) (finish 3 .cont)

end Sys2Proof.Machine
end

