-- ==== Sys2Proof/Machine/Flags.lean ====
section
/-! DEFINITION. The VM core has no flags, condition codes or predicate registers (`10_state.md` R29) and no instruction
computes one. What stands in their place is the one condition of the instruction set: a register tested for non-zero. -/

namespace Sys2Proof.Machine

/-- R29, R140: the condition of move-if. -/
def nonZero (v : Word) : Bool :=
  v != 0#32

end Sys2Proof.Machine
end

