-- ==== Sys2Proof/Machine/Move.lean ====
section
/-! DEFINITION. Conditional move (`41_conditional_move.md`). -/

namespace Sys2Proof.Machine

/-- R140: `if x[c] != 0 then x[a] <- x[b]`, both read first; with `a = 0` a conditional jump (R141). -/
def execMoveIf (a b c : Byte) (s : State) : Result :=
  withReg3 a b c fun ra rb rc =>
    let val := s.reg rb
    finish 4 .cont (if nonZero (s.reg rc) then s.setReg ra val else s)

end Sys2Proof.Machine
end

