-- ==== Sys2Proof/Machine/Output.lean ====
section
/-! DEFINITION. The output instructions (`44_output.md`). -/

namespace Sys2Proof.Machine

/-- R190: sends the low byte of `x[r]` as one character. -/
def execOut (r : Byte) (s : State) : Result :=
  withReg r fun rr =>
    andThen (emit (charBytes s.cfg.outByteEncoding (low8 (s.reg rr))) s) (finish 2 .cont)

/-- R191: sends the signed decimal text of `x[r]`. -/
def execOutNumber (r : Byte) (s : State) : Result :=
  withReg r fun rr => andThen (emit (dec (signed32 (s.reg rr))) s) (finish 2 .cont)

end Sys2Proof.Machine
end

