-- ==== Sys2Proof/Machine/Dispatch.lean ====
section
/-! DEFINITION. The dispatcher (`40_execution_engine.md` R102): one handler per opcode. -/

namespace Sys2Proof.Machine

def exec (i : Instr) (s : State) : Host.Outcome State Fault Refusal :=
  match i with
  | .moveIf a b c => Sys2Proof.Machine.execMoveIf a b c s
  | .store a b => Sys2Proof.Machine.execStore a b s
  | .load a b => Sys2Proof.Machine.execLoad a b s
  | .loadImm a imm => Sys2Proof.Machine.execLoadImm a imm s
  | .sub a b c => Sys2Proof.Machine.execSub a b c s
  | .out r => Sys2Proof.Machine.execOut r s
  | .halt => Sys2Proof.Machine.execHalt s
  | .outNumber r => Sys2Proof.Machine.execOutNumber r s

end Sys2Proof.Machine
end

