-- ==== Sys2Proof/Machine/Fetch.lean ====
section
/-! DEFINITION. Fetching one instruction (`40_execution_engine.md` R101–R103) and storing one where it is fetched. -/

namespace Sys2Proof.Machine

/-- R103: the bytes from the instruction pointer on that lie in memory, at most as many as the longest instruction has.
DEDUCED (log 22): looking at bytes the instruction does not use has no effect (R50). -/
def fetchBytes (s : State) : List Byte :=
  (List.range (min maxLength (s.cfg.memSize - s.ip.toNat))).map fun k => s.byte (s.ip.toNat + k)

/-- R103, R66: a byte sequence that is no instruction, as the error or abort of a fetch at `ip`. -/
def fetchFault (ip : Word) : DecodeError → Fault
  | .wrongInstruction op => .wrongInstruction op
  | .missingByte n => .operandPastEnd (ip.toNat + n)

/-- R101–R103: the fetch check, the dispatch on the opcode, and the operand bytes, in that order (R309). -/
def fetch (s : State) : Except Fault Instr :=
  if s.ip.toNat < s.cfg.memSize then
    match decode (fetchBytes s) with
    | .ok (i, _) => .ok i
    | .error e => .error (fetchFault s.ip e)
  else .error (.noMem s.ip)

/-- Memory with `bytes` stored from `a` on, as far as memory reaches (log 20). -/
def storeInMemory (s : State) (a : Nat) (bytes : List Byte) : State :=
  s.setMem (s.mem.writeBytes a (bytes.take (s.cfg.memSize - a)))

end Sys2Proof.Machine
end

