-- ==== Sys2Proof/Machine/Step.lean ====
section
/-! DEFINITION. One step (`40_execution_engine.md` R100, R109): fetch, then the handler, whose meaning holds the register
validation, the effect, the IP advance and the halt signal. -/

namespace Sys2Proof.Machine

/-- R109: the whole step. -/
def step (s : State) : Host.Outcome State Fault Refusal :=
  match fetch s with
  | .ok i => exec i s
  | .error f => .fault f

/-- The state with the instruction of a table word stored at the instruction pointer, where step fetches next; as far
as memory reaches (log 20). It stands for a host that puts a program into memory (log 14). -/
def State.withFetchWord (s : State) (nbits w : Nat) : State :=
  storeInMemory s s.ip.toNat (tableBytes nbits w)

end Sys2Proof.Machine
end

