-- ==== Sys2Proof/Machine/Cycle.lean ====
section
/-! DEFINITION. The instruction cycle as `40_execution_engine.md` R109 writes it, on natural numbers: opcode number, `LEN`,
`REGOPS`, `EFFECT`, the exact sums and the moduli of R8 and R42. It is a second reading of the spec beside decoder,
dispatcher and handlers, with which it shares the write request, the decimal text, and the read and write of one byte;
that `step` equals it is a claim, and no other definition uses it. -/

namespace Sys2Proof.Machine.Cycle

/-- R61: `LEN(op)`. -/
def len (op : Nat) : Nat :=
  if op = 7 then 1
  else if op = 6 ∨ op = 8 then 2
  else if op = 2 ∨ op = 3 then 3
  else 4

/-- R104: `REGOPS(op)` of the operand bytes. -/
def regops (op a b c : Nat) : List Nat :=
  if op = 1 ∨ op = 5 then [a, b, c]
  else if op = 2 ∨ op = 3 then [a, b]
  else if op = 7 then []
  else [a]

/-- R9: `x[k]` as a number. -/
def x (s : State) (k : Nat) : Nat :=
  (s.regs[k]?.getD 0#32).toNat

/-- R9: `x[k] <- v` for a number `v`. -/
def setX (s : State) (k v : Nat) : State :=
  { s with regs := s.regs.setIfInBounds k (BitVec.ofNat 32 v) }

/-- R9: `M[a]` as a number. -/
def mem (s : State) (a : Nat) : Nat :=
  (s.mem.read a).toNat

/-- R9: `M[a] <- v` for a number `v`. -/
def setMem (s : State) (a v : Nat) : State :=
  { s with mem := s.mem.write a (BitVec.ofNat 8 v) }

/-- R8: `sext_32` of a 16-bit number. -/
def sext (v : Nat) : Nat :=
  if v < 2 ^ 15 then v else v + 2 ^ 32 - 2 ^ 16

/-- R8: `signed32` of a 32-bit number. -/
def signed (v : Nat) : Int :=
  if v < 2 ^ 31 then v else (v : Int) - 2 ^ 32

/-- R140, R150, R151, R170, R171, R190, R191, R210: `EFFECT(op)` on operand bytes that have passed validation. -/
def effect (op a b c : Nat) (s : State) : Result :=
  if op = 1 then
    .next (if x s c ≠ 0 then setX s a (x s b) else s)
  else if op = 2 then
    let addr := x s a
    let v := x s b
    if s.cfg.memSize ≤ addr ∨ s.cfg.memSize < addr + 4 then .fault (.noMem (BitVec.ofNat 32 addr))
    else
      .next (setMem (setMem (setMem (setMem s addr (v % 256)) (addr + 1) (v / 256 % 256))
        (addr + 2) (v / 65536 % 256)) (addr + 3) (v / 16777216 % 256))
  else if op = 3 then
    let addr := x s b
    if s.cfg.memSize ≤ addr ∨ s.cfg.memSize < addr + 4 then .fault (.noMem (BitVec.ofNat 32 addr))
    else
      .next (setX s a (mem s addr + 256 * mem s (addr + 1) + 65536 * mem s (addr + 2)
        + 16777216 * mem s (addr + 3)))
  else if op = 4 then
    .next (setX s a (sext (c * 256 + b)))
  else if op = 5 then
    .next (setX s a ((x s b + 2 ^ 32 - x s c) % 2 ^ 32))
  else if op = 6 then
    let ch := x s a % 256
    if s.cfg.outByteEncoding = .raw ∨ ch < 0x80 then emit [BitVec.ofNat 8 ch] s
    else emit [BitVec.ofNat 8 (0xC0 + ch / 64), BitVec.ofNat 8 (0x80 + ch % 64)] s
  else if op = 8 then
    emit (dec (signed (x s a))) s
  else .next s

/-- R106, R107: the IP advance and the signal. -/
def endStep (op : Nat) (t : State) : Result :=
  let newip := x t 0 + len op
  let signalled (u : State) : Result := .next { u with signal := if op = 7 then .halt else .cont }
  if 2 ^ 32 ≤ newip then
    if t.cfg.ipAdvanceOverflow = .abort then .fault (.ipOverflow (BitVec.ofNat 32 (x t 0)))
    else signalled (setX t 0 (newip - 2 ^ 32))
  else signalled (setX t 0 newip)

/-- R104 to R107: validation of the register operands, effect, IP advance and signal. -/
def handle (op a b c : Nat) (s : State) : Result :=
  let bad := (regops op a b c).filter fun k => 16 ≤ k
  if bad ≠ [] then .fault (.noReg (bad.foldr max 0))
  else
    match effect op a b c s with
    | .next t => endStep op t
    | .fault f => .fault f
    | .refused r => .refused r

/-- R109: `step(s, sink)`, the sink being the one the state holds. -/
def step (s : State) : Result :=
  let ip := x s 0
  if s.cfg.memSize ≤ ip then .fault (.noMem (BitVec.ofNat 32 ip))
  else
    let op := mem s ip
    if op < 1 ∨ 8 < op then .fault (.wrongInstruction (BitVec.ofNat 8 op))
    else
      match (List.range' 1 (len op - 1)).find? fun i => s.cfg.memSize ≤ ip + i with
      | some i => .fault (.operandPastEnd (ip + i))
      | none => handle op (mem s (ip + 1)) (mem s (ip + 2)) (mem s (ip + 3)) s

end Sys2Proof.Machine.Cycle
end

