-- ==== Sys2Proof/Machine/Engine.lean ====
section
/-! DEFINITION. The host's operations on the machine (`40_execution_engine.md` R110–R119, `70_reset_and_hazards.md` R400):
construction, run, the views, set-register, IP-adjust, and the sink a call supplies. -/

namespace Sys2Proof.Machine

/-! ## Construction -/

/-- R400, R35: `new(bytes)`; a buffer longer than the capacity is `MemoryOverflow` and there is no machine (R301). -/
def construct (cfg : Config) (bytes : List Byte) : Result :=
  if cfg.memSize < bytes.length then raise .memoryOverflow
  else .next { State.reset with cfg := cfg, mem := Memory.writeBytes [] 0 bytes }

/-- R112: the sink of the next step or run call, with nothing sent to it yet (R323: none is kept from an earlier call). -/
def State.supplySink (s : State) (sink : Sink) : State :=
  { s with sink := sink, output := [] }

/-! ## The kinds of a fault -/

/-- R300, R307, R324: what a fault is to a run. -/
inductive FaultKind where
  /-- R300: an error of the taxonomy, with its ordinal (D12, log 18). -/
  | error (ordinal : Nat)
  /-- R307: an abort; there is no successor state. -/
  | abort
  /-- R324: the step does not end. -/
  | stuck
  deriving DecidableEq, Repr

/-- R300, R307: the table of errors and aborts. -/
def Fault.kind : Fault → FaultKind
  | .memoryOverflow => .error 0
  | .wrongInstruction _ => .error 1
  | .noReg _ => .error 2
  | .noMem _ => .error 3
  | .outputError _ => .error 4
  | .nonExistingInstruction => .error 5
  | .nonExistingFormat => .error 6
  | .readPastMemoryEnd => .error 7
  | .operandPastEnd _ => .abort
  | .ipOverflow _ => .abort
  | .sinkNeverAnswers => .stuck

/-- R322: what the sink received of a refused write request. -/
def Fault.received : Fault → List Byte
  | .outputError bytes => bytes
  | _ => []

/-! ## Run -/

/-- R110, R115: what a host observes of a run. -/
inductive RunResult where
  /-- R110: a halt, with the final state. -/
  | success (s : State)
  /-- R110: the first error, with the state the failing step left unchanged (R108). -/
  | failure (f : Fault) (s : State)
  /-- R110: an abort; no final state (D17), only what the sink accepted before. -/
  | aborted (f : Fault) (sent : List Byte)
  /-- R324: stuck in a step whose write request is never answered; only what the sink accepted before. -/
  | waiting (sent : List Byte)
  /-- A step was refused by the model; no step is. -/
  | unmodelled (r : Refusal)
  /-- R111: the fuel is used up and the run goes on from this state. -/
  | running (s : State)
  deriving DecidableEq, Repr

/-- R110: a run that ends at a failing step. -/
def endRun (f : Fault) (s : State) : RunResult :=
  match f.kind with
  | .error _ => .failure f s
  | .abort => .aborted f s.output
  | .stuck => .waiting s.output

/-- R110, R111: repeats the step until it halts or fails; a run has no step limit, so it is given fuel. -/
def run : Nat → State → RunResult
  | 0, s => .running s
  | fuel + 1, s =>
    match step s with
    | .next t =>
      match t.signal with
      | .halt => .success t
      | .cont => run fuel t
    | .fault f => endRun f s
    | .refused r => .unmodelled r

/-- R112, R116: single-step with the sink of this call; the default destination is one more sink (D16, log 25). -/
def stepWith (sink : Sink) (s : State) : Result :=
  step (s.supplySink sink)

/-- R112, R116: run with the sink of this call, the same one in every step of it. -/
def runWith (fuel : Nat) (sink : Sink) (s : State) : RunResult :=
  run fuel (s.supplySink sink)

/-- R115: the bytes the sink holds when a run has ended, a refused request's part among them (R322). -/
def RunResult.sinkBytes : RunResult → List Byte
  | .success s => s.output
  | .failure f s => s.output ++ f.received
  | .aborted _ sent => sent
  | .waiting sent => sent
  | .unmodelled _ => []
  | .running s => s.output

/-! ## Views and direct changes -/

/-- R117: the sixteen values `x[0]`..`x[15]`. -/
def State.registerView (s : State) : List Word :=
  s.regs.toList

/-- R117: the bytes `M[0]`..`M[MEM_SIZE-1]`. -/
def State.memoryView (s : State) : List Byte :=
  (List.range s.cfg.memSize).map s.byte

/-- R118: set-register; the index is any natural number and is not reduced (D11, log 17). -/
def setRegister (index : Nat) (v : Word) (s : State) : Result :=
  if h : index < 16 then .next (s.setReg ⟨index, h⟩ v) else raise (.noReg index)

/-- R119: IP-adjust by a signed offset; a result outside `[0, 2^32)` is refused (D10, log 16). -/
def advanceIp (offset : Int) (s : State) : Result :=
  let target := (s.ip.toNat : Int) + offset
  if 0 ≤ target ∧ target < 2 ^ 32 then .next (s.setReg 0 (BitVec.ofInt 32 target))
  else .refused .ipAdjustOutOfRange

end Sys2Proof.Machine
end

