-- ==== Sys2Proof/Safety.lean ====
section
/-! DEFINITION. The terms claims are made in: the invariant, what two states share, when an IP advance completes, what an
instruction has done when it completes, and what a run and a safe run are. -/

namespace Sys2Proof.Machine

/-- R6, R33: the capacity obeys its constraint and memory is in canonical form below it. -/
abbrev State.Inv (s : State) : Prop :=
  s.cfg.wf ∧ s.mem.wf s.cfg.memSize

/-- R106: the IP advance completes from the value `v` that the effect leaves in `x[0]`. Its second part is the parameter
of D4 (log 3). -/
abbrev State.CanAdvance (s : State) (v : Word) (len : Nat) : Prop :=
  v.toNat + len < 2 ^ 32 ∨ s.cfg.ipAdvanceOverflow = .wrap

/-- R106, R142: what an effect that writes `w` to `x[d]` leaves in `x[0]`. -/
def State.ipAfter (s : State) (d : Reg) (w : Word) : Word :=
  if d = 0 then w else s.ip

/-- The bytes `bs` stand in memory from address `a` on, all of them below the capacity. -/
def State.HoldsAt (s : State) (a : Nat) (bs : List Byte) : Prop :=
  a + bs.length ≤ s.cfg.memSize ∧ ∀ (k : Nat) (h : k < bs.length), s.byte (a + k) = bs[k]

/-- R22, R140: the instruction whose bytes stand at the instruction pointer writes `x[0]` by its effect: its destination
byte is 0, and it is a load, a load-imm, a sub, or a move-if whose condition register is non-zero. -/
abbrev State.WritesIp (s : State) : Prop :=
  s.byte (s.ip.toNat + 1) = 0x00#8 ∧
    (s.byte s.ip.toNat ∈ [0x03#8, 0x04#8, 0x05#8] ∨
      (s.byte s.ip.toNat = 0x01#8 ∧ ∃ rc : Reg, s.byte (s.ip.toNat + 3) = regByte rc ∧ s.reg rc ≠ 0#32))

/-- Every byte of memory reads the same in both states. -/
def SameBytes (s t : State) : Prop :=
  ∀ a, t.byte a = s.byte a

/-- Every byte of memory outside the four from `addr` on reads the same in both states. -/
def SameBytesOutside (addr : Nat) (s t : State) : Prop :=
  ∀ a, a < addr ∨ addr + 4 ≤ a → t.byte a = s.byte a

/-- Every register outside the listed ones reads the same in both states. -/
def SameRegsBut (changed : List Reg) (s t : State) : Prop :=
  ∀ r, r ∉ changed → t.reg r = s.reg r

/-- The parameters, the sink and what it has accepted are the same in both states. -/
def SameSurroundings (s t : State) : Prop :=
  t.cfg = s.cfg ∧ t.sink = s.sink ∧ t.output = s.output

/-- An instruction of length `len` has written `w` to `x[d]` and nothing else but its IP advance: the advance adds to
`w` when `d = 0` (R106, R142). -/
def Wrote (d : Reg) (w : Word) (len : Nat) (s t : State) : Prop :=
  t.ip = s.ipAfter d w + BitVec.ofNat 32 len ∧ (d ≠ 0 → t.reg d = w) ∧ SameRegsBut [0, d] s t ∧
    SameBytes s t ∧ SameSurroundings s t ∧ t.signal = .cont

/-- An instruction of length `len` has done nothing but its IP advance, and returned `sig`. -/
def OnlyAdvanced (len : Nat) (sig : Signal) (s t : State) : Prop :=
  t.ip = s.ip + BitVec.ofNat 32 len ∧ SameRegsBut [0] s t ∧ SameBytes s t ∧ SameSurroundings s t ∧
    t.signal = sig

/-- R43, R150: an instruction of length `len` has written the four bytes of `w`, the least significant first, from `addr`
on, and done nothing else but its IP advance. -/
def Stored (addr : Nat) (w : Word) (len : Nat) (s t : State) : Prop :=
  (∀ i, i < 4 → t.byte (addr + i) = BitVec.ofNat 8 (w.toNat / 256 ^ i)) ∧ SameBytesOutside addr s t ∧
    t.ip = s.ip + BitVec.ofNat 32 len ∧ SameRegsBut [0] s t ∧ SameSurroundings s t ∧ t.signal = .cont

/-- An output instruction of length `len` has had `bytes` accepted, the sink going on as `later`, and done nothing else
but its IP advance (R321). -/
def Sent (bytes : List Byte) (later : Sink) (len : Nat) (s t : State) : Prop :=
  t.ip = s.ip + BitVec.ofNat 32 len ∧ SameRegsBut [0] s t ∧ SameBytes s t ∧ t.cfg = s.cfg ∧
    t.sink = later ∧ t.output = s.output ++ bytes ∧ t.signal = .cont

/-- R192: the bytes are the digits 0x30 to 0x39 of the number `n`, most significant first, with no leading zero but
for the number 0 itself. -/
def IsDecimal (bytes : List Byte) (n : Nat) : Prop :=
  (∀ d ∈ bytes, 0x30 ≤ d.toNat ∧ d.toNat ≤ 0x39) ∧
    bytes.foldl (fun acc d => acc * 10 + (d.toNat - 0x30)) 0 = n ∧
    (bytes.head? = some 0x30#8 → bytes = [0x30#8]) ∧ bytes ≠ []

/-- R110: `k` steps lead from one state to another, none of them returning the halt signal. -/
inductive Continues : Nat → State → State → Prop where
  /-- No step. -/
  | none (s : State) : Continues 0 s s
  /-- One step that continues, then `k` more. -/
  | more {k : Nat} {s t u : State} (h : step s = .next t) (c : t.signal = .cont)
      (r : Continues k t u) : Continues (k + 1) s u

/-- R110: a safe run never ends in an error, an abort or a stuck step, however far it is followed; it may halt or go
on without end. -/
def SafeRun (s : State) : Prop :=
  ∀ fuel, (∃ t, run fuel s = .success t) ∨ ∃ t, run fuel s = .running t

end Sys2Proof.Machine
end

