-- ==== Sys2Proof/Certificates/Slice0/Obligations.lean ====
section
/-! DEFINITION. The statements for the provers. `R<n>` is the rule of `spec/` a statement formalises. Every statement is
for every machine: the parameters of R6 and the answers of the sink are fields of the state it quantifies over. -/

open Sys2Proof Sys2Proof.Machine

/-! ## Construction, reset and the invariant -/

/-- R400, R34, R35: construction, for every capacity and every buffer. -/
def Obligations.ConstructionCopiesTheBuffer : Prop :=
  ∀ (cfg : Config) (bytes : List Byte),
    (bytes.length ≤ cfg.memSize →
      ∃ m, construct cfg bytes = .next m ∧ m.cfg = cfg ∧ (∀ r, m.reg r = 0#32) ∧
        (∀ (i : Nat) (h : i < bytes.length), m.byte i = bytes[i]) ∧
        ∀ i, bytes.length ≤ i → i < cfg.memSize → m.byte i = 0#8) ∧
    (cfg.memSize < bytes.length → construct cfg bytes = .fault .memoryOverflow)

/-- R34, R35: the reset state is the machine made from the empty buffer. That its parameters are the defaults and its
sink accepts is the model's choice (logs 1, 3, 4 and 7) and is not stated. -/
def Obligations.ResetIsConstructionFromTheEmptyBuffer : Prop :=
  construct State.reset.cfg [] = .next State.reset ∧ (∀ r, State.reset.reg r = 0#32) ∧
    ∀ a, State.reset.byte a = 0#8

/-- R6, R33: the invariant holds at reset. -/
def Obligations.ResetMeetsTheInvariant : Prop :=
  State.reset.Inv

/-- R6, R400: the invariant holds of every machine construction makes with legal parameters. -/
def Obligations.ConstructedMachinesMeetTheInvariant : Prop :=
  ∀ (cfg : Config) (bytes : List Byte) (m : State), cfg.wf → construct cfg bytes = .next m → m.Inv

/-- R6, R30, R33: from every state that meets it, a step keeps the invariant, and it changes no parameter. -/
def Obligations.StepKeepsTheInvariant : Prop :=
  ∀ s t : State, s.Inv → step s = .next t → t.Inv ∧ t.cfg = s.cfg

/-- R33: memories in canonical form that read the same everywhere are the same data. The form is the model's. -/
def Obligations.EqualBytesAreEqualMemory : Prop :=
  ∀ (size : Nat) (m n : Memory), m.wf size → n.wf size → (∀ a, m.read a = n.read a) → m = n

/-! ## The binary format -/

/-- R60 to R67: decoding the bytes of an instruction, whatever follows them, gives it back, with every operand at every
value. -/
def Obligations.DecodeUndoesEncode : Prop :=
  ∀ (i : Instr) (rest : List Byte), decode (encode i ++ rest) = .ok (i, rest)

/-- R60 to R67: what is decoded is exactly what the bytes say: no two byte sequences decode to one instruction. -/
def Obligations.EncodeUndoesDecode : Prop :=
  ∀ (bs : List Byte) (i : Instr) (rest : List Byte), decode bs = .ok (i, rest) → bs = encode i ++ rest

/-- R65, R66: exactly the opcodes 0 and 9 to 255 are refused, and a legal opcode with three bytes after it always
decodes, whatever they are. -/
def Obligations.ExactlyTheIllegalOpcodesAreRefused : Prop :=
  ∀ (op : Byte) (rest : List Byte),
    (decode (op :: rest) = .error (.wrongInstruction op) ↔ op.toNat = 0 ∨ 9 ≤ op.toNat) ∧
    (1 ≤ op.toNat → op.toNat ≤ 8 → 3 ≤ rest.length → ∃ i r, decode (op :: rest) = .ok (i, r))

/-- R61: the length of an instruction is the table's for its opcode byte. -/
def Obligations.TheOpcodeByteFixesTheLength : Prop :=
  ∀ (op : Byte) (bs rest : List Byte) (i : Instr), decode (op :: bs) = .ok (i, rest) →
    (op :: bs).length = rest.length +
      (if op.toNat = 7 then 1 else if op.toNat = 6 ∨ op.toNat = 8 then 2
        else if op.toNat = 2 ∨ op.toNat = 3 then 3 else 4)

/-- R64: where the immediate stands, its byte order, and its sign extension. That the extension is two's complement is
the spec's general knowledge (R8, log 15). -/
def Obligations.TheImmediateIsLittleEndianAndSignExtended : Prop :=
  ∀ (a lo hi : Byte) (rest : List Byte),
    ∃ imm, decode (0x04#8 :: a :: lo :: hi :: rest) = .ok (.loadImm a imm, rest) ∧
      (sext32 imm).toNat = if hi.toNat < 0x80 then hi.toNat * 256 + lo.toNat
        else 0xFFFF0000 + (hi.toNat * 256 + lo.toNat)

/-- R62, R65, and the examples of R68, R140, R150, R151, R190, R191: one word of every family, written out from the
spec's encoding. -/
def Obligations.SpelledWordsDecode : Prop :=
  decode [0x01#8, 0x01#8, 0x02#8, 0x03#8] = .ok (.moveIf 1 2 3, []) ∧
  decode [0x02#8, 0x01#8, 0x02#8] = .ok (.store 1 2, []) ∧
  decode [0x03#8, 0x01#8, 0x02#8] = .ok (.load 1 2, []) ∧
  decode [0x04#8, 0x01#8, 0x34#8, 0x12#8] = .ok (.loadImm 1 0x1234, []) ∧
  decode [0x05#8, 0x03#8, 0x01#8, 0x02#8] = .ok (.sub 3 1 2, []) ∧
  decode [0x06#8, 0x01#8] = .ok (.out 1, []) ∧
  decode [0x07#8] = .ok (.halt, []) ∧
  decode [0x08#8, 0x01#8] = .ok (.outNumber 1, [])

/-! ## Fetching -/

/-- R109: when the bytes at the instruction pointer decode to an instruction, the step is that instruction. -/
def Obligations.StepRunsTheDecodedInstruction : Prop :=
  ∀ (s : State) (i : Instr) (rest : List Byte), s.ip.toNat < s.cfg.memSize →
    decode (fetchBytes s) = .ok (i, rest) → step s = exec i s

/-- R103, R109: when the bytes of an instruction, well formed or not, stand in memory at the instruction pointer, the
step is that instruction, whatever bytes follow and wherever memory ends after it. -/
def Obligations.StepRunsTheInstructionInMemory : Prop :=
  ∀ (s : State) (i : Instr), s.HoldsAt s.ip.toNat (encode i) → step s = exec i s

/-- R101: the fetch check comes first, and the byte fetched is the one at the instruction pointer. -/
def Obligations.FetchChecksTheInstructionPointer : Prop :=
  ∀ s : State,
    (s.cfg.memSize ≤ s.ip.toNat → step s = .fault (.noMem s.ip)) ∧
    (s.ip.toNat < s.cfg.memSize → (fetchBytes s).head? = some (s.byte s.ip.toNat))

/-- R302: the error of an opcode byte that matches no instruction, with that byte; it is raised for no other. -/
def Obligations.IllegalOpcodeEndsTheStep : Prop :=
  ∀ (s : State) (x : Byte), s.ip.toNat < s.cfg.memSize →
    (step s = .fault (.wrongInstruction x) ↔
      x = s.byte s.ip.toNat ∧ (x.toNat = 0 ∨ 9 ≤ x.toNat))

/-- R103, D3 (log 6): an instruction that begins in memory and ends past it aborts with the first missing address,
whatever its registers are. That it aborts is the spec's own decision. -/
def Obligations.StraddlingInstructionAborts : Prop :=
  ∀ (s : State) (n : Nat), s.ip.toNat < s.cfg.memSize →
    opcodeLength (s.byte s.ip.toNat) = some n → s.cfg.memSize < s.ip.toNat + n →
    step s = .fault (.operandPastEnd s.cfg.memSize)

/-- R104: the largest register operand of 16 or more is the payload, for every instruction and every state; an
instruction whose register operands all exist never raises it. -/
def Obligations.RegisterOperandsAreValidatedFirst : Prop :=
  ∀ (i : Instr) (s : State),
    (∀ k ∈ i.regOps, 16 ≤ k.toNat → (∀ j ∈ i.regOps, j.toNat ≤ k.toNat) →
      exec i s = .fault (.noReg k.toNat)) ∧
    (i.WellFormed → ∀ x, exec i s ≠ .fault (.noReg x))

/-- R51, log 14: a word stored for the next fetch is decoded and run by the very next step. The loading is the
model's. -/
def Obligations.TheNextStepRunsTheLoadedWord : Prop :=
  ∀ (s : State) (nbits w : Nat) (i : Instr), s.ip.toNat + 4 ≤ s.cfg.memSize →
    decodeTableWord nbits w = some i →
    step (s.withFetchWord nbits w) = exec i (s.withFetchWord nbits w)

/-! ## What each instruction does -/

/-- R140, R141: the move, conditional on the third register being non-zero, for every choice of the three registers. -/
def Obligations.MoveIfMovesExactlyWhenTheConditionHolds : Prop :=
  ∀ (s : State) (a b c : Reg),
    (s.reg c ≠ 0#32 → s.CanAdvance (s.ipAfter a (s.reg b)) 4 →
      ∃ t, exec (.moveIf (regByte a) (regByte b) (regByte c)) s = .next t ∧ Wrote a (s.reg b) 4 s t) ∧
    (s.reg c = 0#32 → s.CanAdvance s.ip 4 →
      ∃ t, exec (.moveIf (regByte a) (regByte b) (regByte c)) s = .next t ∧ OnlyAdvanced 4 .cont s t)

/-- R150, R43: the four little-endian bytes, and nothing else in memory. -/
def Obligations.StoreWritesFourLittleEndianBytes : Prop :=
  ∀ (s : State) (a b : Reg), (s.reg a).toNat + 4 ≤ s.cfg.memSize → s.CanAdvance s.ip 3 →
    ∃ t, exec (.store (regByte a) (regByte b)) s = .next t ∧
      t.byte (s.reg a).toNat = BitVec.ofNat 8 (s.reg b).toNat ∧
      t.byte ((s.reg a).toNat + 1) = BitVec.ofNat 8 ((s.reg b).toNat / 256) ∧
      t.byte ((s.reg a).toNat + 2) = BitVec.ofNat 8 ((s.reg b).toNat / 65536) ∧
      t.byte ((s.reg a).toNat + 3) = BitVec.ofNat 8 ((s.reg b).toNat / 16777216) ∧
      SameBytesOutside (s.reg a).toNat s t ∧ t.ip = s.ip + 3#32 ∧ SameRegsBut [0] s t ∧
      SameSurroundings s t ∧ t.signal = .cont

/-- R151, R42: the little-endian word at the address, into the destination, whichever it is. -/
def Obligations.LoadReadsFourLittleEndianBytes : Prop :=
  ∀ (s : State) (a b : Reg) (addr v : Nat), addr = (s.reg b).toNat → addr + 4 ≤ s.cfg.memSize →
    v = (s.byte addr).toNat + 256 * (s.byte (addr + 1)).toNat + 65536 * (s.byte (addr + 2)).toNat
      + 16777216 * (s.byte (addr + 3)).toNat →
    s.CanAdvance (s.ipAfter a (BitVec.ofNat 32 v)) 3 →
    ∃ t, exec (.load (regByte a) (regByte b)) s = .next t ∧ Wrote a (BitVec.ofNat 32 v) 3 s t

/-- R170, R8: the immediate as a signed 16-bit number, into the destination, whichever it is. That the reading is two's
complement is the spec's general knowledge (log 15). -/
def Obligations.LoadImmWritesTheSignedImmediate : Prop :=
  ∀ (s : State) (a : Reg) (imm : BitVec 16), s.CanAdvance (s.ipAfter a (BitVec.ofInt 32 imm.toInt)) 4 →
    ∃ t, exec (.loadImm (regByte a) imm) s = .next t ∧ Wrote a (BitVec.ofInt 32 imm.toInt) 4 s t

/-- R171: the difference modulo `2^32`, both operands read before the write, for every choice of the three registers. -/
def Obligations.SubWritesTheWrappedDifference : Prop :=
  ∀ (s : State) (a b c : Reg) (d : Word), d.toNat = ((s.reg b).toNat + 2 ^ 32 - (s.reg c).toNat) % 2 ^ 32 →
    s.CanAdvance (s.ipAfter a d) 4 →
    ∃ t, exec (.sub (regByte a) (regByte b) (regByte c)) s = .next t ∧ Wrote a d 4 s t

/-- R190: the low byte as one character: one byte under `raw` and below 0x80, else its two-byte form. The UTF-8 form
is the spec's general knowledge (log 13). -/
def Obligations.OutSendsTheLowByteAsOneCharacter : Prop :=
  ∀ (s : State) (r : Reg) (later : Sink) (ch : Nat), ch = (s.reg r).toNat % 256 →
    s.sink.answer = .ok later → s.CanAdvance s.ip 2 →
    ∃ t, exec (.out (regByte r)) s = .next t ∧
      ((s.cfg.outByteEncoding = .raw ∨ ch < 0x80) → Sent [BitVec.ofNat 8 ch] later 2 s t) ∧
      (s.cfg.outByteEncoding = .utf8 → 0x80 ≤ ch →
        Sent [BitVec.ofNat 8 (0xC0 + ch / 64), BitVec.ofNat 8 (0x80 + ch % 64)] later 2 s t)

/-- R191, R8: the decimal text of the register read as a signed number. The text's form is the spec's own decision (D6,
log 12), the two's-complement reading its general knowledge (log 15). -/
def Obligations.OutNumberSendsTheSignedText : Prop :=
  ∀ (s : State) (r : Reg) (later : Sink) (n : Int),
    n = (if (s.reg r).toNat < 2 ^ 31 then ((s.reg r).toNat : Int) else (s.reg r).toNat - 2 ^ 32) →
    s.sink.answer = .ok later → s.CanAdvance s.ip 2 →
    ∃ t, exec (.outNumber (regByte r)) s = .next t ∧ Sent (dec n) later 2 s t

/-- R210: halt advances the instruction pointer by one and returns the halt signal. -/
def Obligations.HaltOnlyAdvancesAndSignals : Prop :=
  ∀ s : State, s.CanAdvance s.ip 1 → ∃ t, exec .halt s = .next t ∧ OnlyAdvanced 1 .halt s t

/-- R192, D6 (log 12): the text of a number of 32 bits: a sign exactly for a negative one, then its digits, and no
more than eleven bytes. -/
def Obligations.DecimalTextIsSignAndDigits : Prop :=
  ∀ n : Int, -2 ^ 31 ≤ n → n < 2 ^ 31 →
    (0 ≤ n → IsDecimal (dec n) n.toNat) ∧
    (n < 0 → ∃ ds, dec n = 0x2D#8 :: ds ∧ IsDecimal ds (-n).toNat) ∧
    1 ≤ (dec n).length ∧ (dec n).length ≤ 11

/-- R46, D2 (log 5): a store or load whose start, or whose four bytes, are not in memory fails with its start address.
For a straddling access it is the spec's own decision. -/
def Obligations.AccessOutsideMemoryFails : Prop :=
  ∀ (s : State) (a b : Reg),
    (s.cfg.memSize < (s.reg a).toNat + 4 →
      exec (.store (regByte a) (regByte b)) s = .fault (.noMem (s.reg a))) ∧
    (s.cfg.memSize < (s.reg b).toNat + 4 →
      exec (.load (regByte a) (regByte b)) s = .fault (.noMem (s.reg b)))

/-- R106, D4 (log 3): under `abort`, an advance past `2^32 - 1` ends the step with what the effect left in `x[0]`, for
every instruction that writes a register. That it aborts is the spec's own decision. -/
def Obligations.IpAdvanceOverflowAborts : Prop :=
  ∀ (s : State) (a b c : Reg) (imm : BitVec 16), s.cfg.ipAdvanceOverflow = .abort →
    (s.reg c ≠ 0#32 → 2 ^ 32 ≤ (s.ipAfter a (s.reg b)).toNat + 4 →
      exec (.moveIf (regByte a) (regByte b) (regByte c)) s =
        .fault (.ipOverflow (s.ipAfter a (s.reg b)))) ∧
    ((s.reg b).toNat + 4 ≤ s.cfg.memSize →
      2 ^ 32 ≤ (s.ipAfter a (s.mem.readWord (s.reg b).toNat)).toNat + 3 →
      exec (.load (regByte a) (regByte b)) s =
        .fault (.ipOverflow (s.ipAfter a (s.mem.readWord (s.reg b).toNat)))) ∧
    (2 ^ 32 ≤ (s.ipAfter a (sext32 imm)).toNat + 4 →
      exec (.loadImm (regByte a) imm) s = .fault (.ipOverflow (s.ipAfter a (sext32 imm)))) ∧
    (2 ^ 32 ≤ (s.ipAfter a (s.reg b - s.reg c)).toNat + 4 →
      exec (.sub (regByte a) (regByte b) (regByte c)) s =
        .fault (.ipOverflow (s.ipAfter a (s.reg b - s.reg c))))

/-- R305, R322, D7 (log 8): a refused write request is the error `OutputError`, the sink having received some first part
of the whole string, any part as `kept` varies. -/
def Obligations.RefusedOutputIsAnOutputError : Prop :=
  ∀ (s : State) (r : Reg) (kept : Nat), s.sink = .failing 0 kept →
    exec (.out (regByte r)) s =
      .fault (.outputError ((charBytes s.cfg.outByteEncoding (low8 (s.reg r))).take kept)) ∧
    exec (.outNumber (regByte r)) s =
      .fault (.outputError ((dec (signed32 (s.reg r))).take kept))

/-- R324 (log 9): a write request that is never answered leaves the machine stuck in that step. -/
def Obligations.UnansweredOutputIsStuck : Prop :=
  ∀ (s : State) (r : Reg), s.sink = .silent 0 →
    exec (.out (regByte r)) s = .fault .sinkNeverAnswers ∧
    exec (.outNumber (regByte r)) s = .fault .sinkNeverAnswers

/-! ## Frames -/

/-- R22, R33, R140, R151, R170, R171: move-if, load, load-imm and sub change no register but the instruction pointer and
the destination, no byte of memory, and nothing about the sink. -/
def Obligations.RegisterInstructionsFrame : Prop :=
  ∀ (s t : State) (a b c : Byte) (imm : BitVec 16) (i : Instr),
    i = .moveIf a b c ∨ i = .load a b ∨ i = .loadImm a imm ∨ i = .sub a b c → exec i s = .next t →
    (∀ r : Reg, r ≠ 0 → regByte r ≠ a → t.reg r = s.reg r) ∧ SameBytes s t ∧ SameSurroundings s t

/-- R150, R43: store changes no register but the instruction pointer, and no byte but the four at its address. -/
def Obligations.StoreFrame : Prop :=
  ∀ (s t : State) (a b : Byte), exec (.store a b) s = .next t →
    (∀ ra : Reg, regOf a = some ra → SameBytesOutside (s.reg ra).toNat s t) ∧
      SameRegsBut [0] s t ∧ SameSurroundings s t

/-- R190, R191, R210: out, out-number and halt change no register but the instruction pointer and no byte of memory;
halt sends nothing, the other two only add to what the sink has accepted. -/
def Obligations.OutputAndHaltFrame : Prop :=
  ∀ (s t : State) (r : Byte) (i : Instr), i = .out r ∨ i = .outNumber r ∨ i = .halt →
    exec i s = .next t →
    SameRegsBut [0] s t ∧ SameBytes s t ∧ t.cfg = s.cfg ∧ (∃ sent, t.output = s.output ++ sent) ∧
      (i = .halt → SameSurroundings s t)

/-! ## Rules of the whole machine -/

/-- R109: the step of decoder, dispatcher and handlers is the instruction cycle the spec writes as one function, written on
numbers. The two share the write request `emit`, the decimal text `dec`, and the read and write of one byte. At the points
D2 to D7 the cycle holds the spec's own decisions (logs 3 to 8, 12); its unanswered request is the model's choice (log 9),
and its UTF-8 form and two's complement are the spec's general knowledge (logs 13 and 15, PRESUMED). -/
def Obligations.StepIsTheInstructionCycle : Prop :=
  ∀ s : State, step s = Cycle.step s

/-- R33: a byte of memory changes only under a store (opcode 2), and only at the four bytes from the address its first
register holds. -/
def Obligations.OnlyStoreChangesMemory : Prop :=
  ∀ (s t : State) (a : Nat), step s = .next t → t.byte a ≠ s.byte a →
    s.byte s.ip.toNat = 0x02#8 ∧
      ∃ ra : Reg, s.byte (s.ip.toNat + 1) = regByte ra ∧ (s.reg ra).toNat ≤ a ∧ a < (s.reg ra).toNat + 4

/-- R22: a register other than the instruction pointer changes only under move-if, load, load-imm or sub, and only when
it is the destination. -/
def Obligations.OnlyTheDestinationRegisterChanges : Prop :=
  ∀ (s t : State) (r : Reg), step s = .next t → r ≠ 0 → t.reg r ≠ s.reg r →
    s.byte s.ip.toNat ∈ [0x01#8, 0x03#8, 0x04#8, 0x05#8] ∧ s.byte (s.ip.toNat + 1) = regByte r

/-- R50, R320: the sink is reached only through out and out-number (opcodes 6 and 8). -/
def Obligations.OnlyOutputInstructionsReachTheSink : Prop :=
  ∀ s t : State, step s = .next t → t.output ≠ s.output ∨ t.sink ≠ s.sink →
    s.byte s.ip.toNat = 0x06#8 ∨ s.byte s.ip.toNat = 0x08#8

/-- R107: only the halt opcode returns the halt signal, and it always does. -/
def Obligations.OnlyHaltSignalsHalt : Prop :=
  ∀ s t : State, step s = .next t → (t.signal = .halt ↔ s.byte s.ip.toNat = 0x07#8)

/-- R25, R106: a step that does not write `x[0]` by its effect (a move-if that does not move among them) moves the
instruction pointer past exactly its own bytes, without wrapping. -/
def Obligations.StepMovesPastTheInstruction : Prop :=
  ∀ (s t : State) (n : Nat), s.cfg.wf → step s = .next t →
    opcodeLength (s.byte s.ip.toNat) = some n →
    ¬s.WritesIp → t.ip.toNat = s.ip.toNat + n

/-- R106, C4: with a legal capacity the advance overflows only in an instruction that wrote `x[0]`. -/
def Obligations.OverflowOnlyAfterWritingTheInstructionPointer : Prop :=
  ∀ (s : State) (v : Word), s.cfg.wf → step s = .fault (.ipOverflow v) → s.WritesIp

/-- R301, R306: no step raises a reserved error or `MemoryOverflow`, and no step is refused. That the reserved errors are
kept and never raised is the spec's own decision (D15, log 21). -/
def Obligations.StepRaisesOnlyReachableErrors : Prop :=
  ∀ s : State,
    (∀ f, step s = .fault f →
      f ≠ .memoryOverflow ∧ f ≠ .nonExistingInstruction ∧ f ≠ .nonExistingFormat ∧ f ≠ .readPastMemoryEnd) ∧
    ∀ r, step s ≠ .refused r

/-- R31, R113: a step is a function of the registers, the memory, the parameters and the sink's answers: what was sent
before and what the last step returned have no part in it. -/
def Obligations.StepDependsOnStateAndAnswersAlone : Prop :=
  ∀ s s' : State, s'.cfg = s.cfg → s'.regs = s.regs → s'.mem = s.mem → s'.sink = s.sink →
    (∀ f, step s = .fault f → step s' = .fault f) ∧
    ∀ t, step s = .next t →
      ∃ t' sent, step s' = .next t' ∧ t'.cfg = t.cfg ∧ t'.regs = t.regs ∧ t'.mem = t.mem ∧
        t'.sink = t.sink ∧ t'.signal = t.signal ∧ t.output = s.output ++ sent ∧
        t'.output = s'.output ++ sent

/-! ## Consequences the spec draws -/

/-- R152: a store of a value and then a load from the same address into another register, with the four bytes left
alone between them, gives the value. -/
def Obligations.LoadAfterStoreGivesTheValue : Prop :=
  ∀ (s t u : State) (a b d e : Reg), exec (.store (regByte a) (regByte b)) s = .next t →
    u.cfg = t.cfg → (∀ i, i < 4 → u.byte ((s.reg a).toNat + i) = t.byte ((s.reg a).toNat + i)) →
    u.reg e = s.reg a → d ≠ 0 → u.CanAdvance u.ip 3 →
    ∃ w, exec (.load (regByte d) (regByte e)) u = .next w ∧ w.reg d = s.reg b

/-- R55, R405: a store over the bytes that follow it is seen by the next fetch: when it puts a halt there, the next step
halts. -/
def Obligations.StoreIsSeenByTheNextFetch : Prop :=
  ∀ (s t : State) (a b : Reg), s.cfg.wf → s.HoldsAt s.ip.toNat (encode (.store (regByte a) (regByte b))) →
    (s.reg a).toNat = s.ip.toNat + 3 → (s.reg b).toNat % 256 = 7 → step s = .next t →
    ∃ u, step t = .next u ∧ OnlyAdvanced 1 .halt t u

/-- R28: an instruction that reads `x[0]` reads its own address, in every operand that can read it: the source and the
condition of move-if, both operands of sub, the address and the value of store, the address of load, and the operand of out
and of out-number. What out and out-number send of the address is `charBytes` and `dec` (D5, D6, logs 4, 12, 13, 15). -/
def Obligations.AnInstructionReadsItsOwnAddress : Prop :=
  ∀ s : State, s.cfg.wf →
    (∀ d c : Reg, s.HoldsAt s.ip.toNat (encode (.moveIf (regByte d) (regByte 0) (regByte c))) →
      s.reg c ≠ 0#32 → ∃ t, step s = .next t ∧ Wrote d s.ip 4 s t) ∧
    (∀ d b : Reg, s.HoldsAt s.ip.toNat (encode (.moveIf (regByte d) (regByte b) (regByte 0))) →
      (s.ip ≠ 0#32 → s.CanAdvance (s.ipAfter d (s.reg b)) 4 →
        ∃ t, step s = .next t ∧ Wrote d (s.reg b) 4 s t) ∧
      (s.ip = 0#32 → ∃ t, step s = .next t ∧ OnlyAdvanced 4 .cont s t)) ∧
    (∀ d c : Reg, s.HoldsAt s.ip.toNat (encode (.sub (regByte d) (regByte 0) (regByte c))) →
      s.CanAdvance (s.ipAfter d (s.ip - s.reg c)) 4 →
      ∃ t, step s = .next t ∧ Wrote d (s.ip - s.reg c) 4 s t) ∧
    (∀ d b : Reg, s.HoldsAt s.ip.toNat (encode (.sub (regByte d) (regByte b) (regByte 0))) →
      s.CanAdvance (s.ipAfter d (s.reg b - s.ip)) 4 →
      ∃ t, step s = .next t ∧ Wrote d (s.reg b - s.ip) 4 s t) ∧
    (∀ b : Reg, s.HoldsAt s.ip.toNat (encode (.store (regByte 0) (regByte b))) →
      s.ip.toNat + 4 ≤ s.cfg.memSize → ∃ t, step s = .next t ∧ Stored s.ip.toNat (s.reg b) 3 s t) ∧
    (∀ a : Reg, s.HoldsAt s.ip.toNat (encode (.store (regByte a) (regByte 0))) →
      (s.reg a).toNat + 4 ≤ s.cfg.memSize → ∃ t, step s = .next t ∧ Stored (s.reg a).toNat s.ip 3 s t) ∧
    (∀ (d : Reg) (v : Nat), s.HoldsAt s.ip.toNat (encode (.load (regByte d) (regByte 0))) →
      s.ip.toNat + 4 ≤ s.cfg.memSize →
      v = 0x03 + 256 * d.val + 16777216 * (s.byte (s.ip.toNat + 3)).toNat →
      s.CanAdvance (s.ipAfter d (BitVec.ofNat 32 v)) 3 →
      ∃ t, step s = .next t ∧ Wrote d (BitVec.ofNat 32 v) 3 s t) ∧
    ∀ later, s.sink.answer = .ok later →
      (s.HoldsAt s.ip.toNat (encode (.out (regByte 0))) →
        ∃ t, step s = .next t ∧
          Sent (charBytes s.cfg.outByteEncoding (low8 s.ip)) later 2 s t) ∧
      (s.HoldsAt s.ip.toNat (encode (.outNumber (regByte 0))) →
        ∃ t, step s = .next t ∧ Sent (dec (signed32 s.ip)) later 2 s t)

/-- R69: the jump idiom `load-imm r0, T-4` reaches every target from 4 to 32771, and the no-operation idiom
`move-if rK, rK, rC` only advances. -/
def Obligations.JumpAndNoOperationIdioms : Prop :=
  (∀ (s : State) (target : Nat), 4 ≤ target → target ≤ 32771 →
    ∃ t, exec (.loadImm (regByte 0) (BitVec.ofNat 16 (target - 4))) s = .next t ∧
      t.ip.toNat = target ∧ SameRegsBut [0] s t ∧ SameBytes s t) ∧
  ∀ (s : State) (k c : Reg), s.CanAdvance s.ip 4 →
    ∃ t, exec (.moveIf (regByte k) (regByte k) (regByte c)) s = .next t ∧ OnlyAdvanced 4 .cont s t

/-- R172: with a register that holds 0, two subtractions add modulo `2^32`. -/
def Obligations.TwoSubtractionsAdd : Prop :=
  ∀ (s t u : State) (n z x y d : Reg), n ≠ 0 → d ≠ 0 → x ≠ 0 → n ≠ x → s.reg z = 0#32 →
    exec (.sub (regByte n) (regByte z) (regByte y)) s = .next t →
    exec (.sub (regByte d) (regByte x) (regByte n)) t = .next u →
    (u.reg d).toNat = ((s.reg x).toNat + (s.reg y).toNat) % 2 ^ 32

/-! ## The host's operations -/

/-- R110, R108, R307: a run succeeds exactly with the state of the first halt, fails exactly with the first error and the
state before the failing step, and aborts exactly at the first abort. That a run's observation ends there is the spec's
own decision (D8, log 19), and so is an abort without a final state (D17, log 24). -/
def Obligations.RunEndsAtTheFirstHaltOrError : Prop :=
  ∀ (fuel : Nat) (s : State),
    (∀ t, run fuel s = .success t ↔
      ∃ k u, k < fuel ∧ Continues k s u ∧ step u = .next t ∧ t.signal = .halt) ∧
    (∀ f t, run fuel s = .failure f t ↔
      ∃ k, k < fuel ∧ Continues k s t ∧ step t = .fault f ∧ ∃ ordinal, f.kind = .error ordinal) ∧
    ∀ f sent, run fuel s = .aborted f sent ↔
      ∃ k u, k < fuel ∧ Continues k s u ∧ step u = .fault f ∧ f.kind = .abort ∧ sent = u.output

/-- R210, R110: a run that stands at a halt in memory ends there with success, executes nothing beyond it, and is safe. -/
def Obligations.ARunAtAHaltSucceedsAtOnce : Prop :=
  ∀ s : State, s.cfg.wf → s.HoldsAt s.ip.toNat (encode .halt) →
    (∀ fuel, ∃ t, run (fuel + 1) s = .success t ∧ OnlyAdvanced 1 .halt s t) ∧ SafeRun s

/-- R117: the read-only views show the sixteen registers and the bytes of memory. -/
def Obligations.ViewsShowRegistersAndMemory : Prop :=
  ∀ s : State, s.registerView.length = 16 ∧ (∀ r : Reg, s.registerView[r.val]? = some (s.reg r)) ∧
    s.memoryView.length = s.cfg.memSize ∧
    ∀ a, a < s.cfg.memSize → s.memoryView[a]? = some (s.byte a)

/-- R118, D11 (log 17): set-register writes exactly the register named, the instruction pointer among them, and fails
with the index as given from 16 on. -/
def Obligations.SetRegisterValidatesTheIndex : Prop :=
  ∀ (s : State) (index : Nat) (v : Word),
    (∀ h : index < 16, ∃ t, setRegister index v s = .next t ∧ t.reg ⟨index, h⟩ = v ∧
      SameRegsBut [⟨index, h⟩] s t ∧ SameBytes s t ∧ SameSurroundings s t) ∧
    (16 ≤ index → setRegister index v s = .fault (.noReg index))

/-- R119, D10 (log 16): IP-adjust adds a signed offset to the instruction pointer and checks nothing; a call that leaves
`[0, 2^32)` is refused, which is the spec's own decision. -/
def Obligations.IpAdjustAddsTheOffset : Prop :=
  ∀ (s : State) (offset : Int),
    (0 ≤ (s.ip.toNat : Int) + offset → (s.ip.toNat : Int) + offset < 2 ^ 32 →
      ∃ t, advanceIp offset s = .next t ∧ (t.ip.toNat : Int) = s.ip.toNat + offset ∧
        SameRegsBut [0] s t ∧ SameBytes s t ∧ SameSurroundings s t) ∧
    ((s.ip.toNat : Int) + offset < 0 ∨ 2 ^ 32 ≤ (s.ip.toNat : Int) + offset →
      advanceIp offset s = .refused .ipAdjustOutOfRange)
end

