-- ==== Sys2Proof/Laws/State.lean ====
section
/-! SUPPORT. One lemma per field per update of the state, so that no proof unfolds a record update. -/

namespace Sys2Proof.Machine

/-! ## setReg -/

@[simp] theorem State.setReg_cfg (s : State) (r : Reg) (v : Word) : (s.setReg r v).cfg = s.cfg := rfl

@[simp] theorem State.setReg_mem (s : State) (r : Reg) (v : Word) : (s.setReg r v).mem = s.mem := rfl

@[simp] theorem State.setReg_sink (s : State) (r : Reg) (v : Word) : (s.setReg r v).sink = s.sink := rfl

@[simp] theorem State.setReg_output (s : State) (r : Reg) (v : Word) : (s.setReg r v).output = s.output := rfl

@[simp] theorem State.setReg_signal (s : State) (r : Reg) (v : Word) : (s.setReg r v).signal = s.signal := rfl

@[simp] theorem State.setReg_byte (s : State) (r : Reg) (v : Word) (a : Nat) : (s.setReg r v).byte a = s.byte a := rfl

/-! ## setMem -/

@[simp] theorem State.setMem_cfg (s : State) (m : Memory) : (s.setMem m).cfg = s.cfg := rfl

@[simp] theorem State.setMem_mem (s : State) (m : Memory) : (s.setMem m).mem = m := rfl

@[simp] theorem State.setMem_sink (s : State) (m : Memory) : (s.setMem m).sink = s.sink := rfl

@[simp] theorem State.setMem_output (s : State) (m : Memory) : (s.setMem m).output = s.output := rfl

@[simp] theorem State.setMem_signal (s : State) (m : Memory) : (s.setMem m).signal = s.signal := rfl

@[simp] theorem State.setMem_regs (s : State) (m : Memory) : (s.setMem m).regs = s.regs := rfl

@[simp] theorem State.setMem_reg (s : State) (m : Memory) (q : Reg) : (s.setMem m).reg q = s.reg q := rfl

@[simp] theorem State.setMem_ip (s : State) (m : Memory) : (s.setMem m).ip = s.ip := rfl

@[simp] theorem State.setMem_byte (s : State) (m : Memory) (a : Nat) : (s.setMem m).byte a = m.read a := rfl

/-! ## sent -/

@[simp] theorem State.sent_cfg (s : State) (later : Sink) (bytes : List Byte) : (s.sent later bytes).cfg = s.cfg := rfl

@[simp] theorem State.sent_mem (s : State) (later : Sink) (bytes : List Byte) : (s.sent later bytes).mem = s.mem := rfl

@[simp] theorem State.sent_sink (s : State) (later : Sink) (bytes : List Byte) : (s.sent later bytes).sink = later := rfl

@[simp] theorem State.sent_output (s : State) (later : Sink) (bytes : List Byte) : (s.sent later bytes).output = s.output ++ bytes := rfl

@[simp] theorem State.sent_signal (s : State) (later : Sink) (bytes : List Byte) : (s.sent later bytes).signal = s.signal := rfl

@[simp] theorem State.sent_regs (s : State) (later : Sink) (bytes : List Byte) : (s.sent later bytes).regs = s.regs := rfl

@[simp] theorem State.sent_reg (s : State) (later : Sink) (bytes : List Byte) (q : Reg) : (s.sent later bytes).reg q = s.reg q := rfl

@[simp] theorem State.sent_ip (s : State) (later : Sink) (bytes : List Byte) : (s.sent later bytes).ip = s.ip := rfl

@[simp] theorem State.sent_byte (s : State) (later : Sink) (bytes : List Byte) (a : Nat) : (s.sent later bytes).byte a = s.byte a := rfl

/-! ## returnSignal -/

@[simp] theorem returnSignal_cfg (s : State) (sig : Signal) : (returnSignal sig s).cfg = s.cfg := rfl

@[simp] theorem returnSignal_mem (s : State) (sig : Signal) : (returnSignal sig s).mem = s.mem := rfl

@[simp] theorem returnSignal_sink (s : State) (sig : Signal) : (returnSignal sig s).sink = s.sink := rfl

@[simp] theorem returnSignal_output (s : State) (sig : Signal) : (returnSignal sig s).output = s.output := rfl

@[simp] theorem returnSignal_signal (s : State) (sig : Signal) : (returnSignal sig s).signal = sig := rfl

@[simp] theorem returnSignal_regs (s : State) (sig : Signal) : (returnSignal sig s).regs = s.regs := rfl

@[simp] theorem returnSignal_reg (s : State) (sig : Signal) (q : Reg) : (returnSignal sig s).reg q = s.reg q := rfl

@[simp] theorem returnSignal_ip (s : State) (sig : Signal) : (returnSignal sig s).ip = s.ip := rfl

@[simp] theorem returnSignal_byte (s : State) (sig : Signal) (a : Nat) : (returnSignal sig s).byte a = s.byte a := rfl

/-! ## supplySink -/

@[simp] theorem State.supplySink_cfg (s : State) (k : Sink) : (s.supplySink k).cfg = s.cfg := rfl

@[simp] theorem State.supplySink_mem (s : State) (k : Sink) : (s.supplySink k).mem = s.mem := rfl

@[simp] theorem State.supplySink_sink (s : State) (k : Sink) : (s.supplySink k).sink = k := rfl

@[simp] theorem State.supplySink_output (s : State) (k : Sink) : (s.supplySink k).output = [] := rfl

@[simp] theorem State.supplySink_signal (s : State) (k : Sink) : (s.supplySink k).signal = s.signal := rfl

@[simp] theorem State.supplySink_regs (s : State) (k : Sink) : (s.supplySink k).regs = s.regs := rfl

@[simp] theorem State.supplySink_reg (s : State) (k : Sink) (q : Reg) : (s.supplySink k).reg q = s.reg q := rfl

@[simp] theorem State.supplySink_ip (s : State) (k : Sink) : (s.supplySink k).ip = s.ip := rfl

@[simp] theorem State.supplySink_byte (s : State) (k : Sink) (a : Nat) : (s.supplySink k).byte a = s.byte a := rfl

/-! ## Reading a register after a write -/

theorem State.reg_setReg (s : State) (r q : Reg) (v : Word) :
    (s.setReg r v).reg q = if q = r then v else s.reg q := by
  simp only [State.reg, State.setReg, Vector.getElem_set, Fin.ext_iff, eq_comm]

@[simp] theorem State.reg_setReg_same (s : State) (r : Reg) (v : Word) : (s.setReg r v).reg r = v := by
  simp [State.reg_setReg]

theorem State.reg_setReg_ne (s : State) {r q : Reg} (v : Word) (h : q ≠ r) :
    (s.setReg r v).reg q = s.reg q := by
  simp [State.reg_setReg, h]

theorem State.ip_setReg (s : State) (r : Reg) (v : Word) :
    (s.setReg r v).ip = if r = 0 then v else s.ip := by
  simp only [State.ip, State.reg_setReg, eq_comm]

@[simp] theorem State.ip_setReg_zero (s : State) (v : Word) : (s.setReg 0 v).ip = v := by
  simp [State.ip_setReg]

theorem State.reg_zero (s : State) : s.reg 0 = s.ip := rfl

theorem State.byte_def (s : State) (a : Nat) : s.mem.read a = s.byte a := rfl

/-! ## Reset -/

theorem State.reset_reg (r : Reg) : State.reset.reg r = 0#32 := by
  simp [State.reg, State.reset]

theorem State.reset_byte (a : Nat) : State.reset.byte a = 0#8 := rfl

end Sys2Proof.Machine
end

