-- ==== Sys2Proof/Laws/Memory.lean ====
section
/-! SUPPORT. Memory: a read after a write, what a write leaves alone, and that every operation keeps the canonical form
(`20_memory.md` R42, R43, R53). -/

namespace Sys2Proof.Machine

/-! ## Reading after the operations -/

theorem Memory.read_clear (m : Memory) (a b : Nat) :
    (m.clear a).read b = if b = a then 0#8 else m.read b := by
  induction m with
  | nil => simp [Memory.clear, Memory.read]
  | cons c m ih =>
    obtain ⟨k, w⟩ := c
    rw [Memory.clear] at ih ⊢
    by_cases hk : k = a
    · subst hk
      by_cases hb : b = k
      · simpa [Memory.read, hb] using ih.trans (if_pos hb)
      · simpa [Memory.read, hb, Ne.symm hb] using ih.trans (if_neg hb)
    · by_cases hb : k = b
      · simp [Memory.read, hb, hb ▸ hk]
      · simp [Memory.read, hk, hb, ih]

theorem Memory.read_place (m : Memory) (a b : Nat) (v : Byte) (h : ∀ c ∈ m, c.1 ≠ a) :
    (m.place a v).read b = if b = a then v else m.read b := by
  induction m with
  | nil =>
    by_cases hb : b = a
    · simp [Memory.place, Memory.read, hb]
    · simp [Memory.place, Memory.read, hb, Ne.symm hb]
  | cons c m ih =>
    obtain ⟨k, w⟩ := c
    have hk : k ≠ a := h (k, w) (by simp)
    have ih := ih fun c hc => h c (by simp [hc])
    rw [Memory.place]
    split
    · by_cases hb : b = a
      · simp [Memory.read, hb]
      · simp [Memory.read, hb, Ne.symm hb]
    · by_cases hb : k = b
      · simp [Memory.read, hb, hb ▸ hk]
      · simp [Memory.read, hb, ih]

/-- Read after write, for any memory: R43 and R53. -/
theorem Memory.read_write (m : Memory) (a b : Nat) (v : Byte) :
    (m.write a v).read b = if b = a then v else m.read b := by
  rw [Memory.write]
  split
  · rename_i hv
    rw [Memory.read_clear, hv]
  · rw [Memory.read_place _ _ _ _ (by simp [Memory.clear]), Memory.read_clear]
    split <;> rfl

theorem Memory.read_writeBytes_outside (bs : List Byte) (m : Memory) (a b : Nat)
    (h : b < a ∨ a + bs.length ≤ b) : (m.writeBytes a bs).read b = m.read b := by
  induction bs generalizing m a with
  | nil => rfl
  | cons v bs ih =>
    rw [List.length_cons] at h
    rw [Memory.writeBytes, ih _ _ (by omega), Memory.read_write, if_neg (by omega)]

theorem Memory.read_writeBytes_inside (bs : List Byte) (m : Memory) (a i : Nat) (h : i < bs.length) :
    (m.writeBytes a bs).read (a + i) = bs[i] := by
  induction bs generalizing m a i with
  | nil => exact absurd h (Nat.not_lt_zero i)
  | cons v bs ih =>
    rw [Memory.writeBytes]
    cases i with
    | zero =>
      rw [Memory.read_writeBytes_outside _ _ _ _ (by omega), Memory.read_write]
      simp
    | succ i =>
      have := ih (m.write a v) (a + 1) i (by simpa using h)
      rw [show a + (i + 1) = a + 1 + i by omega, this]
      rfl

theorem Memory.read_writeWord_outside (m : Memory) (a b : Nat) (v : Word) (h : b < a ∨ a + 4 ≤ b) :
    (m.writeWord a v).read b = m.read b :=
  Memory.read_writeBytes_outside _ m a b h

theorem Memory.read_writeWord_inside (m : Memory) (a i : Nat) (v : Word) (h : i < 4) :
    (m.writeWord a v).read (a + i) = wordByte v i := by
  rw [Memory.writeWord, Memory.read_writeBytes_inside _ _ _ _ h]
  match i, h with
  | 0, _ => rfl
  | 1, _ => rfl
  | 2, _ => rfl
  | 3, _ => rfl

/-! ## Words and their bytes -/

theorem wordOfBytes_wordByte (v : Word) :
    wordOfBytes (wordByte v 0) (wordByte v 1) (wordByte v 2) (wordByte v 3) = v := by
  apply BitVec.eq_of_getLsbD_eq
  intro i hi
  simp only [wordOfBytes, wordByte, BitVec.getLsbD_append, BitVec.getLsbD_extractLsb']
  interval_cases i <;> simp

theorem wordByte_toNat (v : Word) (i : Nat) : (wordByte v i).toNat = v.toNat / 256 ^ i % 256 := by
  rw [wordByte, BitVec.extractLsb'_toNat, Nat.shiftRight_eq_div_pow, Nat.pow_mul]

theorem wordOfBytes_toNat (b0 b1 b2 b3 : Byte) :
    (wordOfBytes b0 b1 b2 b3).toNat =
      b0.toNat + 256 * b1.toNat + 65536 * b2.toNat + 16777216 * b3.toNat := by
  have h0 := b0.isLt
  have h1 := b1.isLt
  have h2 := b2.isLt
  simp only [wordOfBytes, BitVec.toNat_append]
  rw [← Nat.shiftLeft_add_eq_or_of_lt h0, ← Nat.shiftLeft_add_eq_or_of_lt h1,
    ← Nat.shiftLeft_add_eq_or_of_lt h2]
  simp only [Nat.shiftLeft_eq]
  omega

/-! ## The canonical form is kept -/

theorem Memory.wf_clear {size : Nat} {m : Memory} (h : m.wf size) (a : Nat) : (m.clear a).wf size :=
  ⟨h.1.filter _, fun c hc => h.2 c (List.mem_of_mem_filter hc)⟩

theorem Memory.mem_place {m : Memory} {a : Nat} {v : Byte} {c : Host.Cell} (h : c ∈ m.place a v) :
    c = (a, v) ∨ c ∈ m := by
  induction m with
  | nil => simpa [Memory.place] using h
  | cons d m ih =>
    obtain ⟨k, w⟩ := d
    rw [Memory.place] at h
    split at h
    · simpa using h
    · rcases List.mem_cons.mp h with h | h
      · exact .inr (by simp [h])
      · exact (ih h).imp_right fun h => by simp [h]

theorem Memory.wf_place {size : Nat} {m : Memory} (h : m.wf size) {a : Nat} {v : Byte}
    (ha : a < size) (hv : v ≠ 0#8) (hm : ∀ c ∈ m, c.1 ≠ a) : (m.place a v).wf size := by
  refine ⟨?_, fun c hc => ?_⟩
  · obtain ⟨h, -⟩ := h
    induction m with
    | nil => simp [Memory.place]
    | cons d m ih =>
      obtain ⟨k, w⟩ := d
      obtain ⟨hd, ht⟩ := List.pairwise_cons.mp h
      have hk : k ≠ a := hm (k, w) (by simp)
      rw [Memory.place]
      split
      · rename_i hak
        refine List.pairwise_cons.mpr ⟨fun c hc => ?_, h⟩
        rcases List.mem_cons.mp hc with rfl | hc
        · exact hak
        · exact Nat.lt_trans hak (hd c hc)
      · refine List.pairwise_cons.mpr ⟨fun c hc => ?_, ih (fun c hc => hm c (by simp [hc])) ht⟩
        rcases Memory.mem_place hc with rfl | hc
        · show k < a
          omega
        · exact hd c hc
  · rcases Memory.mem_place hc with rfl | hc
    · exact ⟨hv, ha⟩
    · exact h.2 c hc

theorem Memory.wf_write {size : Nat} {m : Memory} (h : m.wf size) {a : Nat} (ha : a < size) (v : Byte) :
    (m.write a v).wf size := by
  rw [Memory.write]
  split
  · exact Memory.wf_clear h a
  · rename_i hv
    exact Memory.wf_place (Memory.wf_clear h a) ha hv (by simp [Memory.clear])

theorem Memory.wf_writeBytes {size : Nat} (bs : List Byte) {m : Memory} (h : m.wf size) {a : Nat}
    (ha : a + bs.length ≤ size) : (m.writeBytes a bs).wf size := by
  induction bs generalizing m a with
  | nil => exact h
  | cons v bs ih =>
    rw [List.length_cons] at ha
    exact ih (Memory.wf_write h (by omega) v) (by omega)

theorem Memory.wf_writeWord {size : Nat} {m : Memory} (h : m.wf size) {a : Nat} (ha : a + 4 ≤ size)
    (v : Word) : (m.writeWord a v).wf size :=
  Memory.wf_writeBytes _ h ha

theorem Memory.wf_reset : State.reset.mem.wf State.reset.cfg.memSize := by
  decide

end Sys2Proof.Machine
end

