-- ==== Sys2Proof/Laws/Ops.lean ====
section
/-! SUPPORT. For each shared operation, once, everything it can do: the end of a step, the checked data accesses, the
write request, and the validation of register operands. -/

namespace Sys2Proof.Machine

/-! ## Sequencing -/

@[simp] theorem andThen_next (s : State) (f : State → Result) : andThen (.next s) f = f s := rfl

@[simp] theorem andThen_fault (r : Fault) (f : State → Result) : andThen (.fault r) f = .fault r := rfl

@[simp] theorem andThen_refused (r : Refusal) (f : State → Result) :
    andThen (.refused r) f = .refused r := rfl

@[simp] theorem raise_eq_fault (f : Fault) : raise f = .fault f := rfl

theorem andThen_eq_next {o : Result} {f : State → Result} {t : State} (h : andThen o f = .next t) :
    ∃ u, o = .next u ∧ f u = .next t := by
  cases o with
  | next u => exact ⟨u, rfl, h⟩
  | fault _ => exact nomatch h
  | refused _ => exact nomatch h

/-! ## The IP advance and the end of a step (R106, R107) -/

theorem advance_next (len : Nat) (s : State) (h : s.CanAdvance s.ip len) :
    advance len s = .next (s.setReg 0 (s.ip + BitVec.ofNat 32 len)) := by
  have hv : s.ip + BitVec.ofNat 32 len = BitVec.ofNat 32 (s.ip.toNat + len) := by
    apply BitVec.eq_of_toNat_eq
    simp [BitVec.toNat_add]
  rw [advance]
  split
  · rw [hv]
  · rename_i hge
    have hw := h.resolve_left hge
    have hv' : BitVec.ofNat 32 (s.ip.toNat + len - 2 ^ 32) = BitVec.ofNat 32 (s.ip.toNat + len) := by
      apply BitVec.eq_of_toNat_eq
      simp only [BitVec.toNat_ofNat]
      omega
    rw [hw, hv, ← hv']

theorem advance_cases (len : Nat) (s : State) :
    (s.CanAdvance s.ip len ∧ advance len s = .next (s.setReg 0 (s.ip + BitVec.ofNat 32 len))) ∨
      (2 ^ 32 ≤ s.ip.toNat + len ∧ s.cfg.ipAdvanceOverflow = .abort ∧
        advance len s = .fault (.ipOverflow s.ip)) := by
  by_cases h : s.CanAdvance s.ip len
  · exact .inl ⟨h, advance_next len s h⟩
  · obtain ⟨hlt, hw⟩ := not_or.mp h
    have ha : s.cfg.ipAdvanceOverflow = .abort := by
      cases hc : s.cfg.ipAdvanceOverflow with
      | abort => rfl
      | wrap => exact absurd hc hw
    refine .inr ⟨Nat.le_of_not_lt hlt, ha, ?_⟩
    rw [advance, if_neg hlt, ha]
    rfl

/-- The state a completed step leaves, from the state its effect left. -/
theorem finish_next (len : Nat) (sig : Signal) (s : State) (h : s.CanAdvance s.ip len) :
    finish len sig s = .next (returnSignal sig (s.setReg 0 (s.ip + BitVec.ofNat 32 len))) := by
  rw [finish, advance_next len s h, andThen_next]

theorem finish_overflow (len : Nat) (sig : Signal) (s : State) (h : 2 ^ 32 ≤ s.ip.toNat + len)
    (ha : s.cfg.ipAdvanceOverflow = .abort) : finish len sig s = .fault (.ipOverflow s.ip) := by
  rw [finish, advance, if_neg (by omega), ha]
  rfl

theorem finish_cases (len : Nat) (sig : Signal) (s : State) :
    (s.CanAdvance s.ip len ∧
        finish len sig s = .next (returnSignal sig (s.setReg 0 (s.ip + BitVec.ofNat 32 len)))) ∨
      (2 ^ 32 ≤ s.ip.toNat + len ∧ s.cfg.ipAdvanceOverflow = .abort ∧
        finish len sig s = .fault (.ipOverflow s.ip)) := by
  rcases advance_cases len s with ⟨h, -⟩ | ⟨h, ha, -⟩
  · exact .inl ⟨h, finish_next len sig s h⟩
  · exact .inr ⟨h, ha, finish_overflow len sig s h ha⟩

/-- Everything an end of step that answers a next state does. -/
theorem finish_eq_next {len : Nat} {sig : Signal} {s t : State} (h : finish len sig s = .next t) :
    s.CanAdvance s.ip len ∧ t.ip = s.ip + BitVec.ofNat 32 len ∧ (∀ r, r ≠ 0 → t.reg r = s.reg r) ∧
      t.cfg = s.cfg ∧ t.mem = s.mem ∧ t.sink = s.sink ∧ t.output = s.output ∧ t.signal = sig := by
  rcases finish_cases len sig s with ⟨hc, he⟩ | ⟨-, -, he⟩
  · rw [he] at h
    injection h with h
    subst h
    exact ⟨hc, by simp, fun r hr => by simp [State.reg_setReg_ne _ _ hr], rfl, rfl, rfl, rfl, rfl⟩
  · rw [he] at h
    exact nomatch h

/-- The end of a step after a register write, in the terms of the claims. -/
theorem finish_wrote {s : State} {d : Reg} {w : Word} {len : Nat} (h : s.CanAdvance (s.ipAfter d w) len) :
    ∃ t, finish len .cont (s.setReg d w) = .next t ∧ Wrote d w len s t := by
  have hip : (s.setReg d w).ip = s.ipAfter d w := State.ip_setReg s d w
  refine ⟨_, finish_next _ _ _ (by rw [hip]; exact h), by simp [hip], fun hd => ?_, fun r hr => ?_,
    fun _ => rfl, ⟨rfl, rfl, rfl⟩, rfl⟩
  · simp [State.reg_setReg_ne _ _ hd]
  · obtain ⟨h0, hd⟩ : r ≠ 0 ∧ r ≠ d := by simpa using hr
    simp [State.reg_setReg_ne _ _ h0, State.reg_setReg_ne _ _ hd]

/-- The overflow of the end of a step after a register write. -/
theorem finish_wrote_overflow {s : State} {d : Reg} {w : Word} {len : Nat}
    (ha : s.cfg.ipAdvanceOverflow = .abort) (h : 2 ^ 32 ≤ (s.ipAfter d w).toNat + len) :
    finish len .cont (s.setReg d w) = .fault (.ipOverflow (s.ipAfter d w)) := by
  have hip : (s.setReg d w).ip = s.ipAfter d w := State.ip_setReg s d w
  rw [finish_overflow len .cont (s.setReg d w) (by rw [hip]; exact h) ha, hip]

/-- The end of a step after an effect that left the state alone. -/
theorem finish_onlyAdvanced {s : State} {len : Nat} (sig : Signal) (h : s.CanAdvance s.ip len) :
    ∃ t, finish len sig s = .next t ∧ OnlyAdvanced len sig s t := by
  refine ⟨_, finish_next _ _ _ h, by simp, fun r hr => ?_, fun _ => rfl, ⟨rfl, rfl, rfl⟩, rfl⟩
  simp [State.reg_setReg_ne _ _ (show r ≠ 0 by simpa using hr)]

/-- The end of a step after a word has been written to memory. -/
theorem finish_stored {s : State} {len : Nat} (addr : Nat) (w : Word) (h : s.CanAdvance s.ip len) :
    ∃ t, finish len .cont (s.setMem (s.mem.writeWord addr w)) = .next t ∧ Stored addr w len s t := by
  refine ⟨_, finish_next _ _ _ h, fun i hi => ?_, fun a ha => ?_, by simp, fun r hr => ?_,
    ⟨rfl, rfl, rfl⟩, rfl⟩
  · rw [returnSignal_byte, State.setReg_byte, State.setMem_byte, Memory.read_writeWord_inside _ _ _ _ hi]
    apply BitVec.eq_of_toNat_eq
    rw [wordByte_toNat, BitVec.toNat_ofNat]
  · exact Memory.read_writeWord_outside _ _ _ _ ha
  · simp [State.reg_setReg_ne _ _ (show r ≠ 0 by simpa using hr)]

/-- The end of a step after an accepted write request. -/
theorem finish_sent {s : State} {len : Nat} (bytes : List Byte) (later : Sink)
    (h : s.CanAdvance s.ip len) :
    ∃ t, finish len .cont (s.sent later bytes) = .next t ∧ Sent bytes later len s t := by
  refine ⟨_, finish_next _ _ _ h, by simp, fun r hr => ?_, fun _ => rfl, rfl, rfl, rfl, rfl⟩
  simp [State.reg_setReg_ne _ _ (show r ≠ 0 by simpa using hr)]

/-! ## Data accesses (R46) -/

theorem storeWord_next {addr : Word} (v : Word) {s : State} (h : s.InRange addr) :
    storeWord addr v s = .next (s.setMem (s.mem.writeWord addr.toNat v)) :=
  if_pos h

theorem storeWord_fault {addr : Word} (v : Word) {s : State} (h : ¬ s.InRange addr) :
    storeWord addr v s = .fault (.noMem addr) :=
  if_neg h

theorem storeWord_eq_next {addr v : Word} {s t : State} (h : storeWord addr v s = .next t) :
    s.InRange addr ∧ t = s.setMem (s.mem.writeWord addr.toNat v) := by
  by_cases hr : s.InRange addr
  · rw [storeWord_next v hr] at h
    injection h with h
    exact ⟨hr, h.symm⟩
  · rw [storeWord_fault v hr] at h
    exact nomatch h

theorem loadWord_next (d : Reg) {addr : Word} {s : State} (h : s.InRange addr) :
    loadWord d addr s = .next (s.setReg d (s.mem.readWord addr.toNat)) :=
  if_pos h

theorem loadWord_fault (d : Reg) {addr : Word} {s : State} (h : ¬ s.InRange addr) :
    loadWord d addr s = .fault (.noMem addr) :=
  if_neg h

theorem loadWord_eq_next {d : Reg} {addr : Word} {s t : State} (h : loadWord d addr s = .next t) :
    s.InRange addr ∧ t = s.setReg d (s.mem.readWord addr.toNat) := by
  by_cases hr : s.InRange addr
  · rw [loadWord_next d hr] at h
    injection h with h
    exact ⟨hr, h.symm⟩
  · rw [loadWord_fault d hr] at h
    exact nomatch h

/-! ## The write request (R321, R322, R324) -/

theorem emit_ok {s : State} {later : Sink} (bytes : List Byte) (h : s.sink.answer = .ok later) :
    emit bytes s = .next (s.sent later bytes) := by
  rw [emit, h]

theorem emit_fail {s : State} {kept : Nat} (bytes : List Byte) (h : s.sink.answer = .fail kept) :
    emit bytes s = .fault (.outputError (bytes.take kept)) := by
  rw [emit, h]
  rfl

theorem emit_never {s : State} (bytes : List Byte) (h : s.sink.answer = .never) :
    emit bytes s = .fault .sinkNeverAnswers := by
  rw [emit, h]
  rfl

theorem emit_eq_next {bytes : List Byte} {s t : State} (h : emit bytes s = .next t) :
    ∃ later, s.sink.answer = .ok later ∧ t = s.sent later bytes := by
  cases ha : s.sink.answer with
  | ok later =>
    rw [emit_ok bytes ha] at h
    injection h with h
    exact ⟨later, rfl, h.symm⟩
  | fail kept =>
    rw [emit_fail bytes ha] at h
    exact nomatch h
  | never =>
    rw [emit_never bytes ha] at h
    exact nomatch h

/-! ## Register operands (R104) -/

theorem regOf_of_lt {k : Byte} (h : k.toNat < 16) : regOf k = some ⟨k.toNat, h⟩ :=
  dif_pos h

theorem regOf_of_ge {k : Byte} (h : ¬ k.toNat < 16) : regOf k = none :=
  dif_neg h

theorem regByte_toNat (r : Reg) : (regByte r).toNat = r.val := by
  rw [regByte, BitVec.toNat_ofNat]
  omega

@[simp] theorem regOf_regByte (r : Reg) : regOf (regByte r) = some r := by
  have h := regByte_toNat r
  rw [regOf_of_lt (by omega)]
  exact congrArg some (Fin.ext h)

theorem regByte_of_regOf {k : Byte} {r : Reg} (h : regOf k = some r) : k = regByte r := by
  by_cases hk : k.toNat < 16
  · rw [regOf_of_lt hk] at h
    injection h with h
    apply BitVec.eq_of_toNat_eq
    rw [regByte_toNat, ← h]
  · rw [regOf_of_ge hk] at h
    exact nomatch h

/-- R104: the payload is the largest operand, once one of them is 16 or more. -/
theorem maxOffending_eq {ks : List Byte} {k : Byte} (hk : k ∈ ks) (h16 : 16 ≤ k.toNat)
    (hmax : ∀ j ∈ ks, j.toNat ≤ k.toNat) : maxOffending ks = k.toNat := by
  have hle : ∀ l : List Nat, (∀ j ∈ l, j ≤ k.toNat) → l.foldr max 0 ≤ k.toNat := by
    intro l hl
    induction l with
    | nil => simp
    | cons j l ih =>
      exact max_le (hl j (by simp)) (ih fun i hi => hl i (by simp [hi]))
  have hge : ∀ l : List Nat, k.toNat ∈ l → k.toNat ≤ l.foldr max 0 := by
    intro l hl
    induction l with
    | nil => simp at hl
    | cons j l ih =>
      rcases List.mem_cons.mp hl with h | h
      · exact h ▸ le_max_left _ _
      · exact le_trans (ih h) (le_max_right _ _)
  apply le_antisymm
  · refine hle _ fun j hj => ?_
    obtain ⟨i, hi, rfl⟩ := List.mem_map.mp (List.mem_of_mem_filter hj)
    exact hmax i hi
  · exact hge _ (List.mem_filter.mpr ⟨List.mem_map_of_mem hk, by simpa using h16⟩)

@[simp] theorem withReg_regByte (a : Reg) (f : Reg → Result) : withReg (regByte a) f = f a := by
  rw [withReg, regOf_regByte]

@[simp] theorem withReg2_regByte (a b : Reg) (f : Reg → Reg → Result) :
    withReg2 (regByte a) (regByte b) f = f a b := by
  rw [withReg2, regOf_regByte, regOf_regByte]

@[simp] theorem withReg3_regByte (a b c : Reg) (f : Reg → Reg → Reg → Result) :
    withReg3 (regByte a) (regByte b) (regByte c) f = f a b c := by
  rw [withReg3, regOf_regByte, regOf_regByte, regOf_regByte]

theorem withReg_cases (a : Byte) (f : Reg → Result) :
    (∃ ra, a = regByte ra ∧ withReg a f = f ra) ∨
      (¬ a.toNat < 16 ∧ withReg a f = .fault (.noReg (maxOffending [a]))) := by
  by_cases h : a.toNat < 16
  · have ha := regByte_of_regOf (regOf_of_lt h)
    exact .inl ⟨⟨a.toNat, h⟩, ha, by rw [withReg, regOf_of_lt h]⟩
  · exact .inr ⟨h, by rw [withReg, regOf_of_ge h]; rfl⟩

theorem withReg2_cases (a b : Byte) (f : Reg → Reg → Result) :
    (∃ ra rb, a = regByte ra ∧ b = regByte rb ∧ withReg2 a b f = f ra rb) ∨
      (¬ (a.toNat < 16 ∧ b.toNat < 16) ∧
        withReg2 a b f = .fault (.noReg (maxOffending [a, b]))) := by
  by_cases h : a.toNat < 16 ∧ b.toNat < 16
  · obtain ⟨ha, hb⟩ := h
    exact .inl ⟨⟨a.toNat, ha⟩, ⟨b.toNat, hb⟩, regByte_of_regOf (regOf_of_lt ha),
      regByte_of_regOf (regOf_of_lt hb), by rw [withReg2, regOf_of_lt ha, regOf_of_lt hb]⟩
  · refine .inr ⟨h, ?_⟩
    rw [withReg2]
    split
    · rename_i ra rb hra hrb
      have ha := congrArg BitVec.toNat (regByte_of_regOf hra)
      have hb := congrArg BitVec.toNat (regByte_of_regOf hrb)
      rw [regByte_toNat] at ha hb
      omega
    · rfl

theorem withReg3_cases (a b c : Byte) (f : Reg → Reg → Reg → Result) :
    (∃ ra rb rc, a = regByte ra ∧ b = regByte rb ∧ c = regByte rc ∧ withReg3 a b c f = f ra rb rc) ∨
      (¬ (a.toNat < 16 ∧ b.toNat < 16 ∧ c.toNat < 16) ∧
        withReg3 a b c f = .fault (.noReg (maxOffending [a, b, c]))) := by
  by_cases h : a.toNat < 16 ∧ b.toNat < 16 ∧ c.toNat < 16
  · obtain ⟨ha, hb, hc⟩ := h
    exact .inl ⟨⟨a.toNat, ha⟩, ⟨b.toNat, hb⟩, ⟨c.toNat, hc⟩, regByte_of_regOf (regOf_of_lt ha),
      regByte_of_regOf (regOf_of_lt hb), regByte_of_regOf (regOf_of_lt hc),
      by rw [withReg3, regOf_of_lt ha, regOf_of_lt hb, regOf_of_lt hc]⟩
  · refine .inr ⟨h, ?_⟩
    rw [withReg3]
    split
    · rename_i ra rb rc hra hrb hrc
      have ha := congrArg BitVec.toNat (regByte_of_regOf hra)
      have hb := congrArg BitVec.toNat (regByte_of_regOf hrb)
      have hc := congrArg BitVec.toNat (regByte_of_regOf hrc)
      rw [regByte_toNat] at ha hb hc
      omega
    · rfl

end Sys2Proof.Machine
end

