-- ==== Sys2Proof/Laws/Cycle.lean ====
section
/-! SUPPORT. The operations of the cycle on numbers (`Machine/Cycle.lean`) in terms of the model's own. -/

namespace Sys2Proof.Machine.Cycle

theorem x_reg (s : State) (r : Reg) : x s r.val = (s.reg r).toNat := by
  simp [x, State.reg]

theorem x_zero (s : State) : x s 0 = s.ip.toNat :=
  x_reg s 0

theorem mem_eq_byte (s : State) (a : Nat) : mem s a = (s.byte a).toNat := rfl

theorem setX_reg (s : State) (r : Reg) (v : Nat) : setX s r.val v = s.setReg r (BitVec.ofNat 32 v) := by
  have : s.regs.setIfInBounds r.val (BitVec.ofNat 32 v) = s.regs.set r.val (BitVec.ofNat 32 v) := by
    ext i hi
    simp [Vector.getElem_set, Vector.getElem_setIfInBounds]
  simp only [setX, State.setReg, this]

theorem setX_zero (s : State) (v : Nat) : setX s 0 v = s.setReg 0 (BitVec.ofNat 32 v) :=
  setX_reg s 0 v

/-- The end of a step of the cycle is the model's. -/
theorem endStep_eq_finish {op n : Nat} {sig : Signal} (t : State) (hl : len op = n)
    (hs : (if op = 7 then Signal.halt else Signal.cont) = sig) : endStep op t = finish n sig t := by
  rw [endStep, x_zero, hl, hs, finish, advance]
  simp only [setX_zero]
  by_cases h : 2 ^ 32 ≤ t.ip.toNat + n
  · rw [if_pos h, if_neg (Nat.not_lt.mpr h)]
    cases hc : t.cfg.ipAdvanceOverflow with
    | abort => simp
    | wrap => rfl
  · rw [if_neg h, if_pos (Nat.lt_of_not_le h)]
    rfl

end Sys2Proof.Machine.Cycle
end

