-- ==== Sys2Proof/Laws/Decode.lean ====
section
/-! SUPPORT. The small lemmas of the binary format: the two bytes of the immediate, lengths, and what each operand
format reads. -/

namespace Sys2Proof

theorem immLo_concat16 (hi lo : Byte) : immLo (concat16 hi lo) = lo := by
  apply BitVec.eq_of_getLsbD_eq
  intro i hi'
  simp only [immLo, concat16, BitVec.getLsbD_extractLsb', BitVec.getLsbD_append]
  simp [hi']

theorem immHi_concat16 (hi lo : Byte) : immHi (concat16 hi lo) = hi := by
  apply BitVec.eq_of_getLsbD_eq
  intro i hi'
  simp only [immHi, concat16, BitVec.getLsbD_extractLsb', BitVec.getLsbD_append]
  simp [hi', show ¬ (8 + i < 8) by omega]

theorem concat16_immHi_immLo (imm : BitVec 16) : concat16 (immHi imm) (immLo imm) = imm := by
  apply BitVec.eq_of_getLsbD_eq
  intro i hi
  simp only [immLo, immHi, concat16, BitVec.getLsbD_extractLsb', BitVec.getLsbD_append]
  by_cases h : i < 8
  · simp [h]
  · simp [h, show i - 8 < 8 by omega, show 8 + (i - 8) = i by omega]

theorem concat16_toNat (hi lo : Byte) : (concat16 hi lo).toNat = hi.toNat * 256 + lo.toNat := by
  rw [concat16, BitVec.toNat_append, ← Nat.shiftLeft_add_eq_or_of_lt lo.isLt, Nat.shiftLeft_eq]

/-- R8: `sext_32` as the spec writes it. -/
theorem sext32_toNat (imm : BitVec 16) :
    (sext32 imm).toNat = if imm.toNat < 2 ^ 15 then imm.toNat else imm.toNat + 2 ^ 32 - 2 ^ 16 := by
  have h := imm.isLt
  rw [sext32, BitVec.toNat_signExtend, BitVec.toNat_setWidth, Nat.mod_eq_of_lt (by omega)]
  have hm : imm.msb = decide (2 ^ 15 ≤ imm.toNat) := BitVec.msb_eq_decide imm
  rw [hm]
  split <;> rename_i hd <;> simp at hd
  · rw [if_neg (by omega)]
    omega
  · rw [if_pos (by omega)]
    rfl

/-- R61: the opcodes that have a length. -/
theorem opcodeLength_eq_none {op : Byte} :
    opcodeLength op = none ↔ op.toNat = 0 ∨ 9 ≤ op.toNat := by
  rw [opcodeLength]
  split <;> simp_all
  omega

/-- R61, R62: each length and the opcodes that have it. -/
theorem opcodeLength_eq_some {op : Byte} {n : Nat} (h : opcodeLength op = some n) :
    (n = 4 ∧ op ∈ [1#8, 4#8, 5#8]) ∨ (n = 3 ∧ op ∈ [2#8, 3#8]) ∨ (n = 2 ∧ op ∈ [6#8, 8#8]) ∨
      (n = 1 ∧ op = 7#8) := by
  have e : op = BitVec.ofNat 8 op.toNat := by simp
  rw [opcodeLength] at h
  split at h <;> first
    | contradiction
    | (rename_i hop; cases h; rw [hop] at e; simp [e])

/-! ## What the operand formats and the decoder read -/

/-- What decoding `op :: bs` comes to when instructions of opcode `op` are `n` bytes long: with enough bytes it takes
exactly those, and they are the encoding of what it answers; with fewer it names the first missing one (R103). -/
def DecodesAtLength (op : Byte) (n : Nat) (bs : List Byte) : Prop :=
  (∃ i operands rest, bs = operands ++ rest ∧ operands.length + 1 = n ∧ encode i = op :: operands ∧
      decode (op :: bs) = .ok (i, rest)) ∨
    (bs.length + 1 < n ∧ decode (op :: bs) = .error (.missingByte (bs.length + 1)))

/-- Format `R` of R62: an opcode whose operand is read by `decodeR`. -/
theorem decodesAtLength_R {op : Byte} {f : Byte → Instr} {bs : List Byte}
    (hd : decode (op :: bs) = decodeR f bs) (he : ∀ r, encode (f r) = [op, r]) :
    DecodesAtLength op 2 bs :=
  match bs with
  | r :: rest => .inl ⟨f r, [r], rest, rfl, rfl, he r, hd⟩
  | [] => .inr ⟨by simp, hd⟩

/-- Format `RR` of R62. -/
theorem decodesAtLength_RR {op : Byte} {f : Byte → Byte → Instr} {bs : List Byte}
    (hd : decode (op :: bs) = decodeRR f bs) (he : ∀ a b, encode (f a b) = [op, a, b]) :
    DecodesAtLength op 3 bs :=
  match bs with
  | a :: b :: rest => .inl ⟨f a b, [a, b], rest, rfl, rfl, he a b, hd⟩
  | [_] | [] => .inr ⟨by simp, hd⟩

/-- Formats `RRR` and `RI` of R62. -/
theorem decodesAtLength_RRR {op : Byte} {f : Byte → Byte → Byte → Instr} {bs : List Byte}
    (hd : decode (op :: bs) = decodeRRR f bs) (he : ∀ a b c, encode (f a b c) = [op, a, b, c]) :
    DecodesAtLength op 4 bs :=
  match bs with
  | a :: b :: c :: rest => .inl ⟨f a b c, [a, b, c], rest, rfl, rfl, he a b c, hd⟩
  | [_, _] | [_] | [] => .inr ⟨by simp, hd⟩

theorem decode_of_illegal {op : Byte} (h : opcodeLength op = none) (bs : List Byte) :
    decode (op :: bs) = .error (.wrongInstruction op) := by
  rw [opcodeLength_eq_none] at h
  rw [decode]
  split <;> first | rfl | omega

/-- Decoding a legal opcode, once for all. -/
theorem decode_of_legal {op : Byte} {n : Nat} (h : opcodeLength op = some n) (bs : List Byte) :
    DecodesAtLength op n bs := by
  obtain ⟨rfl, hop⟩ | ⟨rfl, hop⟩ | ⟨rfl, hop⟩ | ⟨rfl, rfl⟩ := opcodeLength_eq_some h
  · simp only [List.mem_cons, List.not_mem_nil, or_false] at hop
    obtain rfl | rfl | rfl := hop
    · exact decodesAtLength_RRR (f := .moveIf) rfl fun _ _ _ => rfl
    · exact decodesAtLength_RRR rfl fun a lo hi => by rw [encode, immLo_concat16, immHi_concat16]
    · exact decodesAtLength_RRR (f := .sub) rfl fun _ _ _ => rfl
  · simp only [List.mem_cons, List.not_mem_nil, or_false] at hop
    obtain rfl | rfl := hop
    · exact decodesAtLength_RR (f := .store) rfl fun _ _ => rfl
    · exact decodesAtLength_RR (f := .load) rfl fun _ _ => rfl
  · simp only [List.mem_cons, List.not_mem_nil, or_false] at hop
    obtain rfl | rfl := hop
    · exact decodesAtLength_R (f := .out) rfl fun _ => rfl
    · exact decodesAtLength_R (f := .outNumber) rfl fun _ => rfl
  · exact .inl ⟨.halt, [], bs, rfl, rfl, rfl, rfl⟩

@[simp] theorem tableBytes_length (nbits w : Nat) : (tableBytes nbits w).length = 4 := by
  simp [tableBytes, maxLength]

end Sys2Proof
end

