-- ==== Sys2Proof/Laws/Exec.lean ====
section
/-! SUPPORT. What each meaning is on operands that name registers, once the validation is passed, and the one inversion
of every meaning that answers a next state. -/

namespace Sys2Proof.Machine

theorem execMoveIf_regs (a b c : Reg) (s : State) :
    execMoveIf (regByte a) (regByte b) (regByte c) s =
      finish 4 .cont (if s.reg c = 0#32 then s else s.setReg a (s.reg b)) := by
  rw [execMoveIf, withReg3_regByte, nonZero]
  by_cases h : s.reg c = 0#32 <;> simp [h]

theorem execStore_regs (a b : Reg) (s : State) :
    execStore (regByte a) (regByte b) s =
      andThen (storeWord (s.reg a) (s.reg b) s) (finish 3 .cont) := by
  rw [execStore, withReg2_regByte]

theorem execLoad_regs (a b : Reg) (s : State) :
    execLoad (regByte a) (regByte b) s = andThen (loadWord a (s.reg b) s) (finish 3 .cont) := by
  rw [execLoad, withReg2_regByte]

theorem execLoadImm_regs (a : Reg) (imm : BitVec 16) (s : State) :
    execLoadImm (regByte a) imm s = finish 4 .cont (s.setReg a (sext32 imm)) := by
  rw [execLoadImm, withReg_regByte]

theorem execSub_regs (a b c : Reg) (s : State) :
    execSub (regByte a) (regByte b) (regByte c) s =
      finish 4 .cont (s.setReg a (s.reg b - s.reg c)) := by
  rw [execSub, withReg3_regByte]

theorem execOut_regs (r : Reg) (s : State) :
    execOut (regByte r) s =
      andThen (emit (charBytes s.cfg.outByteEncoding (low8 (s.reg r))) s) (finish 2 .cont) := by
  rw [execOut, withReg_regByte]

theorem execOutNumber_regs (r : Reg) (s : State) :
    execOutNumber (regByte r) s = andThen (emit (dec (signed32 (s.reg r))) s) (finish 2 .cont) := by
  rw [execOutNumber, withReg_regByte]

theorem regByte_lt (r : Reg) : (regByte r).toNat < 16 := by
  rw [regByte_toNat]
  exact r.isLt

/-- What every instruction does when it answers a next state: an effect on the state, then the end of the step.
`len` is its length and `sig` its halt signal; the effect is one of a register write, nothing, a store, a request. -/
inductive EffectOf (s : State) : Instr → Nat → Signal → State → Prop where
  | moved (a b c : Reg) (h : s.reg c ≠ 0#32) :
      EffectOf s (.moveIf (regByte a) (regByte b) (regByte c)) 4 .cont (s.setReg a (s.reg b))
  | notMoved (a b c : Reg) (h : s.reg c = 0#32) :
      EffectOf s (.moveIf (regByte a) (regByte b) (regByte c)) 4 .cont s
  | stored (a b : Reg) (h : s.InRange (s.reg a)) :
      EffectOf s (.store (regByte a) (regByte b)) 3 .cont
        (s.setMem (s.mem.writeWord (s.reg a).toNat (s.reg b)))
  | loaded (a b : Reg) (h : s.InRange (s.reg b)) :
      EffectOf s (.load (regByte a) (regByte b)) 3 .cont
        (s.setReg a (s.mem.readWord (s.reg b).toNat))
  | immediate (a : Reg) (imm : BitVec 16) :
      EffectOf s (.loadImm (regByte a) imm) 4 .cont (s.setReg a (sext32 imm))
  | subtracted (a b c : Reg) :
      EffectOf s (.sub (regByte a) (regByte b) (regByte c)) 4 .cont (s.setReg a (s.reg b - s.reg c))
  | sentChar (r : Reg) (later : Sink) (h : s.sink.answer = .ok later) :
      EffectOf s (.out (regByte r)) 2 .cont
        (s.sent later (charBytes s.cfg.outByteEncoding (low8 (s.reg r))))
  | halted : EffectOf s .halt 1 .halt s
  | sentNumber (r : Reg) (later : Sink) (h : s.sink.answer = .ok later) :
      EffectOf s (.outNumber (regByte r)) 2 .cont (s.sent later (dec (signed32 (s.reg r))))

/-- Why an instruction stops before it has had an effect: an operand that names no register, or, all of them naming
one, an address outside memory or the sink's answer. -/
def StopOf (i : Instr) (f : Fault) : Prop :=
  (¬ i.WellFormed ∧ f = .noReg (maxOffending i.regOps)) ∨
    (i.WellFormed ∧ ((∃ addr, f = .noMem addr) ∨ (∃ bytes, f = .outputError bytes) ∨ f = .sinkNeverAnswers))

/-- Everything exec can do: an effect and then the end of the step, or a stop before any effect. -/
theorem exec_cases (i : Instr) (s : State) :
    (∃ len sig u, EffectOf s i len sig u ∧ exec i s = finish len sig u) ∨
      ∃ f, exec i s = .fault f ∧ StopOf i f := by
  cases i with
  | moveIf a b c =>
    rw [exec]
    rcases withReg3_cases a b c _ with ⟨ra, rb, rc, rfl, rfl, rfl, -⟩ | ⟨hb, he⟩
    · rw [execMoveIf_regs]
      by_cases hc : s.reg rc = 0#32
      · exact .inl ⟨_, _, _, .notMoved ra rb rc hc, by rw [if_pos hc]⟩
      · exact .inl ⟨_, _, _, .moved ra rb rc hc, by rw [if_neg hc]⟩
    · exact .inr ⟨_, he, .inl ⟨fun hw => hb (by simpa [Instr.WellFormed, Instr.regOps] using hw), rfl⟩⟩
  | store a b =>
    rw [exec]
    rcases withReg2_cases a b _ with ⟨ra, rb, rfl, rfl, -⟩ | ⟨hb, he⟩
    · rw [execStore_regs]
      by_cases hr : s.InRange (s.reg ra)
      · exact .inl ⟨_, _, _, .stored ra rb hr, by rw [storeWord_next _ hr, andThen_next]⟩
      · exact .inr ⟨_, by rw [storeWord_fault _ hr, andThen_fault],
          .inr ⟨by simp [Instr.WellFormed, Instr.regOps, regByte_lt], .inl ⟨_, rfl⟩⟩⟩
    · exact .inr ⟨_, he, .inl ⟨fun hw => hb (by simpa [Instr.WellFormed, Instr.regOps] using hw), rfl⟩⟩
  | load a b =>
    rw [exec]
    rcases withReg2_cases a b _ with ⟨ra, rb, rfl, rfl, -⟩ | ⟨hb, he⟩
    · rw [execLoad_regs]
      by_cases hr : s.InRange (s.reg rb)
      · exact .inl ⟨_, _, _, .loaded ra rb hr, by rw [loadWord_next _ hr, andThen_next]⟩
      · exact .inr ⟨_, by rw [loadWord_fault _ hr, andThen_fault],
          .inr ⟨by simp [Instr.WellFormed, Instr.regOps, regByte_lt], .inl ⟨_, rfl⟩⟩⟩
    · exact .inr ⟨_, he, .inl ⟨fun hw => hb (by simpa [Instr.WellFormed, Instr.regOps] using hw), rfl⟩⟩
  | loadImm a imm =>
    rw [exec]
    rcases withReg_cases a _ with ⟨ra, rfl, -⟩ | ⟨hb, he⟩
    · exact .inl ⟨_, _, _, .immediate ra imm, execLoadImm_regs ra imm s⟩
    · exact .inr ⟨_, he, .inl ⟨fun hw => hb (by simpa [Instr.WellFormed, Instr.regOps] using hw), rfl⟩⟩
  | sub a b c =>
    rw [exec]
    rcases withReg3_cases a b c _ with ⟨ra, rb, rc, rfl, rfl, rfl, -⟩ | ⟨hb, he⟩
    · exact .inl ⟨_, _, _, .subtracted ra rb rc, execSub_regs ra rb rc s⟩
    · exact .inr ⟨_, he, .inl ⟨fun hw => hb (by simpa [Instr.WellFormed, Instr.regOps] using hw), rfl⟩⟩
  | out r =>
    rw [exec]
    rcases withReg_cases r _ with ⟨rr, rfl, -⟩ | ⟨hb, he⟩
    · have hw : (Instr.out (regByte rr)).WellFormed := by simp [Instr.WellFormed, Instr.regOps, regByte_lt]
      rw [execOut_regs]
      cases ha : s.sink.answer with
      | ok later => exact .inl ⟨_, _, _, .sentChar rr later ha, by rw [emit_ok _ ha, andThen_next]⟩
      | fail kept => exact .inr ⟨_, by rw [emit_fail _ ha, andThen_fault], .inr ⟨hw, .inr (.inl ⟨_, rfl⟩)⟩⟩
      | never => exact .inr ⟨_, by rw [emit_never _ ha, andThen_fault], .inr ⟨hw, .inr (.inr rfl)⟩⟩
    · exact .inr ⟨_, he, .inl ⟨fun hw => hb (by simpa [Instr.WellFormed, Instr.regOps] using hw), rfl⟩⟩
  | halt => exact .inl ⟨_, _, _, .halted, rfl⟩
  | outNumber r =>
    rw [exec]
    rcases withReg_cases r _ with ⟨rr, rfl, -⟩ | ⟨hb, he⟩
    · have hw : (Instr.outNumber (regByte rr)).WellFormed := by simp [Instr.WellFormed, Instr.regOps, regByte_lt]
      rw [execOutNumber_regs]
      cases ha : s.sink.answer with
      | ok later => exact .inl ⟨_, _, _, .sentNumber rr later ha, by rw [emit_ok _ ha, andThen_next]⟩
      | fail kept => exact .inr ⟨_, by rw [emit_fail _ ha, andThen_fault], .inr ⟨hw, .inr (.inl ⟨_, rfl⟩)⟩⟩
      | never => exact .inr ⟨_, by rw [emit_never _ ha, andThen_fault], .inr ⟨hw, .inr (.inr rfl)⟩⟩
    · exact .inr ⟨_, he, .inl ⟨fun hw => hb (by simpa [Instr.WellFormed, Instr.regOps] using hw), rfl⟩⟩

/-- Every next state comes from one of the effects and the end of the step. -/
theorem exec_eq_next {i : Instr} {s t : State} (h : exec i s = .next t) :
    ∃ len sig u, EffectOf s i len sig u ∧ finish len sig u = .next t := by
  rcases exec_cases i s with ⟨len, sig, u, hu, he⟩ | ⟨f, he, -⟩
  · exact ⟨len, sig, u, hu, he ▸ h⟩
  · rw [he] at h
    exact nomatch h

/-- Every fault comes from a stop before any effect, or is the overflow of the IP advance after one. -/
theorem exec_eq_fault {i : Instr} {s : State} {f : Fault} (h : exec i s = .fault f) :
    StopOf i f ∨ ∃ len sig u, EffectOf s i len sig u ∧ f = .ipOverflow u.ip ∧ 2 ^ 32 ≤ u.ip.toNat + len := by
  rcases exec_cases i s with ⟨len, sig, u, hu, he⟩ | ⟨g, he, hg⟩
  · rw [he] at h
    rcases finish_cases len sig u with ⟨-, hf⟩ | ⟨hge, -, hf⟩
    · rw [hf] at h
      exact nomatch h
    · rw [hf] at h
      injection h with h
      exact .inr ⟨len, sig, u, hu, h.symm, hge⟩
  · rw [he] at h
    injection h with h
    exact .inl (h ▸ hg)

end Sys2Proof.Machine
end

