-- ==== Sys2Proof/Laws/Fetch.lean ====
section
/-! SUPPORT. What a fetch answers, and what a step is in each case (`40_execution_engine.md` R101–R103, R109). -/

namespace Sys2Proof.Machine

theorem step_of_fetch_ok {s : State} {i : Instr} (h : fetch s = .ok i) : step s = exec i s := by
  rw [step, h]

theorem step_of_fetch_error {s : State} {f : Fault} (h : fetch s = .error f) : step s = .fault f := by
  rw [step, h]

theorem fetch_noMem {s : State} (h : s.cfg.memSize ≤ s.ip.toNat) : fetch s = .error (.noMem s.ip) :=
  if_neg (Nat.not_lt.mpr h)

theorem fetch_inMemory {s : State} (h : s.ip.toNat < s.cfg.memSize) :
    fetch s = match decode (fetchBytes s) with
      | .ok (i, _) => .ok i
      | .error e => .error (fetchFault s.ip e) :=
  if_pos h

@[simp] theorem fetchBytes_length (s : State) :
    (fetchBytes s).length = min maxLength (s.cfg.memSize - s.ip.toNat) := by
  simp [fetchBytes]

theorem fetchBytes_getElem (s : State) (k : Nat) (h : k < (fetchBytes s).length) :
    (fetchBytes s)[k] = s.byte (s.ip.toNat + k) := by
  simp [fetchBytes]

/-- A next state comes from an instruction that was decoded in memory and executed. -/
theorem step_eq_next {s t : State} (h : step s = .next t) :
    ∃ i rest, s.ip.toNat < s.cfg.memSize ∧ decode (fetchBytes s) = .ok (i, rest) ∧
      exec i s = .next t := by
  by_cases hm : s.ip.toNat < s.cfg.memSize
  · rw [step, fetch_inMemory hm] at h
    cases hd : decode (fetchBytes s) with
    | ok p =>
      rw [hd] at h
      exact ⟨p.1, p.2, hm, rfl, h⟩
    | error e =>
      rw [hd] at h
      exact nomatch h
  · rw [step_of_fetch_error (fetch_noMem (Nat.not_lt.mp hm))] at h
    exact nomatch h

/-- In memory, the window of a fetch is the opcode byte and up to three bytes after it. -/
theorem fetchBytes_cons {s : State} (h : s.ip.toNat < s.cfg.memSize) :
    ∃ tail, fetchBytes s = s.byte s.ip.toNat :: tail ∧
      tail.length + 1 = min maxLength (s.cfg.memSize - s.ip.toNat) ∧
      ∀ (k : Nat) (hk : k < tail.length), tail[k] = s.byte (s.ip.toNat + (k + 1)) := by
  have hl := fetchBytes_length s
  have hg := fetchBytes_getElem s
  revert hl hg
  generalize fetchBytes s = bs
  intro hl hg
  cases bs with
  | nil =>
    rw [List.length_nil, maxLength] at hl
    omega
  | cons b tail =>
    obtain rfl : b = s.byte s.ip.toNat := hg 0 (by simp)
    exact ⟨tail, rfl, hl, fun k hk => hg (k + 1) (by simpa using hk)⟩

/-- What is fetched stands in memory at the instruction pointer, whole. -/
theorem fetch_eq_ok {s : State} {i : Instr} (h : fetch s = .ok i) :
    s.HoldsAt s.ip.toNat (encode i) := by
  by_cases hm : s.ip.toNat < s.cfg.memSize
  swap
  · rw [fetch_noMem (Nat.not_lt.mp hm)] at h
    exact nomatch h
  obtain ⟨tail, ht, hlen, hk⟩ := fetchBytes_cons hm
  rw [fetch_inMemory hm, ht] at h
  cases hop : opcodeLength (s.byte s.ip.toNat) with
  | none =>
    rw [decode_of_illegal hop] at h
    exact nomatch h
  | some n =>
    rcases decode_of_legal hop tail with ⟨j, operands, rest, rfl, -, hj, hd⟩ | ⟨-, hd⟩
    · rw [hd] at h
      injection h with h
      subst h
      refine ⟨?_, fun k hkl => ?_⟩
      · rw [hj]
        simp only [List.length_append, List.length_cons, maxLength] at hlen ⊢
        omega
      · cases k with
        | zero => simp [hj]
        | succ k =>
          have hko : k < operands.length := by simpa [hj] using hkl
          have := hk k (by simp; omega)
          rw [List.getElem_append_left hko] at this
          simp [hj, this]
    · rw [hd] at h
      exact nomatch h

/-- The faults of a fetch (R101–R103). -/
theorem fetch_eq_error {s : State} {f : Fault} (h : fetch s = .error f) :
    f = .noMem s.ip ∨ f = .wrongInstruction (s.byte s.ip.toNat) ∨ ∃ addr, f = .operandPastEnd addr := by
  by_cases hm : s.ip.toNat < s.cfg.memSize
  swap
  · rw [fetch_noMem (Nat.not_lt.mp hm)] at h
    injection h with h
    exact .inl h.symm
  obtain ⟨tail, ht, -⟩ := fetchBytes_cons hm
  rw [fetch_inMemory hm, ht] at h
  cases hop : opcodeLength (s.byte s.ip.toNat) with
  | none =>
    rw [decode_of_illegal hop] at h
    injection h with h
    exact .inr (.inl h.symm)
  | some n =>
    rcases decode_of_legal hop tail with ⟨j, operands, rest, -, -, -, hd⟩ | ⟨-, hd⟩
    · rw [hd] at h
      exact nomatch h
    · rw [hd] at h
      injection h with h
      exact .inr (.inr ⟨_, h.symm⟩)

/-- The converse of running what stands in memory: a next state comes from an instruction whose bytes stand in memory at
the instruction pointer. -/
theorem step_eq_next_holds {s t : State} (h : step s = .next t) :
    ∃ i, s.HoldsAt s.ip.toNat (encode i) ∧ exec i s = .next t := by
  cases hf : fetch s with
  | ok i => exact ⟨i, fetch_eq_ok hf, by rwa [step_of_fetch_ok hf] at h⟩
  | error f =>
    rw [step_of_fetch_error hf] at h
    exact nomatch h

/-- The opcode byte and the operand bytes of an instruction that stands in memory. -/
theorem holdsAt_encode {s : State} {a : Nat} {op : Byte} {i : Instr} {operands : List Byte}
    (h : s.HoldsAt a (encode i)) (he : encode i = op :: operands) :
    s.byte a = op ∧ ∀ (k : Nat) (hk : k < operands.length), s.byte (a + (k + 1)) = operands[k] := by
  rw [he] at h
  exact ⟨h.2 0 (by simp), fun k hk => h.2 (k + 1) (by simpa using hk)⟩

@[simp] theorem storeInMemory_cfg (s : State) (a : Nat) (bs : List Byte) :
    (storeInMemory s a bs).cfg = s.cfg := rfl

@[simp] theorem storeInMemory_reg (s : State) (a : Nat) (bs : List Byte) (r : Reg) :
    (storeInMemory s a bs).reg r = s.reg r := rfl

@[simp] theorem storeInMemory_ip (s : State) (a : Nat) (bs : List Byte) :
    (storeInMemory s a bs).ip = s.ip := rfl

/-- Placing a word for the next fetch keeps memory in canonical form. -/
theorem wf_withFetchWord {s : State} (h : s.mem.wf s.cfg.memSize) (nbits w : Nat) :
    (s.withFetchWord nbits w).mem.wf s.cfg.memSize := by
  by_cases hm : s.ip.toNat ≤ s.cfg.memSize
  · exact Memory.wf_writeBytes _ h (by rw [List.length_take]; omega)
  · have : (tableBytes nbits w).take (s.cfg.memSize - s.ip.toNat) = [] := by
      rw [show s.cfg.memSize - s.ip.toNat = 0 by omega, List.take_zero]
    rw [State.withFetchWord, storeInMemory, this]
    exact h

end Sys2Proof.Machine
end

