-- ==== Sys2Proof/Laws/Engine.lean ====
section
/-! SUPPORT. One equation of `run` per outcome of the first step, and what a chain of continuing steps can be
(`40_execution_engine.md` R110). -/

namespace Sys2Proof.Machine

theorem run_of_halt {s t : State} (fuel : Nat) (h : step s = .next t) (hs : t.signal = .halt) :
    run (fuel + 1) s = .success t := by
  rw [run, h]
  simp only [hs]

theorem run_of_cont {s t : State} (fuel : Nat) (h : step s = .next t) (hs : t.signal = .cont) :
    run (fuel + 1) s = run fuel t := by
  rw [run, h]
  simp only [hs]

theorem run_of_fault {s : State} {f : Fault} (fuel : Nat) (h : step s = .fault f) :
    run (fuel + 1) s = endRun f s := by
  rw [run, h]

theorem run_of_refused {s : State} {r : Refusal} (fuel : Nat) (h : step s = .refused r) :
    run (fuel + 1) s = .unmodelled r := by
  rw [run, h]

theorem continues_zero {s u : State} : Continues 0 s u ↔ u = s :=
  ⟨fun h => by cases h; rfl, fun h => h ▸ .none s⟩

theorem continues_succ {k : Nat} {s u : State} :
    Continues (k + 1) s u ↔ ∃ t, step s = .next t ∧ t.signal = .cont ∧ Continues k t u :=
  ⟨fun h => by cases h with | more h c r => exact ⟨_, h, c, r⟩, fun ⟨_, h, c, r⟩ => .more h c r⟩

end Sys2Proof.Machine
end

