-- ==== Sys2Proof/Laws/Operands.lean ====
section
/-! SUPPORT. The byte strings of the output instructions, in numbers (`00_scope.md` R8, `44_output.md` R190, R192). -/

namespace Sys2Proof.Machine

theorem low8_toNat (v : Word) : (low8 v).toNat = v.toNat % 256 := by
  simp [low8]

theorem signed32_eq (v : Word) :
    signed32 v = if v.toNat < 2 ^ 31 then (v.toNat : Int) else (v.toNat : Int) - 2 ^ 32 := by
  rw [signed32, BitVec.toInt_eq_toNat_cond]
  split <;> split <;> first | rfl | omega

theorem charBytes_one {enc : OutByteEncoding} {ch : Byte} (h : enc = .raw ∨ ch.toNat < 0x80) :
    charBytes enc ch = [ch] := by
  rw [charBytes.eq_def]
  rcases h with rfl | h
  · rfl
  · split
    · rfl
    · rw [if_pos h]

theorem charBytes_two {ch : Byte} (h : 0x80 ≤ ch.toNat) :
    charBytes .utf8 ch =
      [BitVec.ofNat 8 (0xC0 + ch.toNat / 64), BitVec.ofNat 8 (0x80 + ch.toNat % 64)] := by
  have h1 : 0xC0#8 + (ch >>> 6) = BitVec.ofNat 8 (0xC0 + ch.toNat / 64) := by
    apply BitVec.eq_of_toNat_eq
    simp [BitVec.toNat_add, Nat.shiftRight_eq_div_pow]
  have h2 : 0x80#8 + (ch &&& 0x3F#8) = BitVec.ofNat 8 (0x80 + ch.toNat % 64) := by
    apply BitVec.eq_of_toNat_eq
    have := Nat.and_two_pow_sub_one_eq_mod ch.toNat 6
    simp only [BitVec.toNat_add, BitVec.toNat_and, BitVec.toNat_ofNat]
    norm_num at this ⊢
    rw [this]
  rw [charBytes.eq_def]
  simp only
  rw [if_neg (by omega), h1, h2]

theorem digitByte_toNat {d : Nat} (h : d < 10) : (digitByte d).toNat = 0x30 + d := by
  rw [digitByte, BitVec.toNat_ofNat]
  omega

theorem digits_small {fuel n : Nat} (h : n < 10) : digits (fuel + 1) n = [digitByte n] := by
  rw [digits, if_pos h]

theorem digits_large {fuel n : Nat} (h : ¬ n < 10) :
    digits (fuel + 1) n = digits fuel (n / 10) ++ [digitByte (n % 10)] := by
  rw [digits, if_neg h]

end Sys2Proof.Machine
end

