-- ==== Sys2Proof/Laws/PerInstr.lean ====
section
/-! SUPPORT. The family EncodedLength, one lemma per constructor: an encoded instruction begins with an opcode byte, and
its length is the one that byte alone fixes (`30_encoding.md` R60, R61). -/

namespace Sys2Proof.Laws.EncodedLength

/-- The opcode byte at the head of an encoding has a length, from 1 to 4, and it is the encoding's. -/
def Statement (i : Instr) : Prop :=
  ∃ op operands, encode i = op :: operands ∧ opcodeLength op = some (encode i).length ∧
    1 ≤ (encode i).length ∧ (encode i).length ≤ maxLength

theorem moveIf (a b c : Byte) : Statement (.moveIf a b c) :=
  ⟨_, _, rfl, rfl, by simp [encode], by simp [encode, maxLength]⟩

theorem store (a b : Byte) : Statement (.store a b) :=
  ⟨_, _, rfl, rfl, by simp [encode], by simp [encode, maxLength]⟩

theorem load (a b : Byte) : Statement (.load a b) :=
  ⟨_, _, rfl, rfl, by simp [encode], by simp [encode, maxLength]⟩

theorem loadImm (a : Byte) (imm : BitVec 16) : Statement (.loadImm a imm) :=
  ⟨_, _, rfl, rfl, by simp [encode], by simp [encode, maxLength]⟩

theorem sub (a b c : Byte) : Statement (.sub a b c) :=
  ⟨_, _, rfl, rfl, by simp [encode], by simp [encode, maxLength]⟩

theorem out (r : Byte) : Statement (.out r) :=
  ⟨_, _, rfl, rfl, by simp [encode], by simp [encode, maxLength]⟩

theorem halt : Statement .halt :=
  ⟨_, _, rfl, rfl, by simp [encode], by simp [encode, maxLength]⟩

theorem outNumber (r : Byte) : Statement (.outNumber r) :=
  ⟨_, _, rfl, rfl, by simp [encode], by simp [encode, maxLength]⟩

end Sys2Proof.Laws.EncodedLength
end

