-- ==== Sys2Proof/Tests/Slice0.lean ====
section
/-! SUPPORT. Tests of one step or one operation each, with results from `spec/95_test_vectors.md` (its vector's name
stands in the test's comment) or worked by hand from the rule named; the smoke test of WellFormed; and for every
statement with hypotheses a witness that meets them. -/

open Sys2Proof Sys2Proof.Machine

namespace Sys2Proof.Tests

/-! ## Helpers -/

/-- The reset state with some registers set. -/
def regs (xs : List (Reg × Word)) : State :=
  xs.foldl (fun s p => s.setReg p.1 p.2) State.reset

/-- A state with bytes put into memory from an address on. -/
def bytesAt (a : Nat) (bs : List Byte) (s : State) : State :=
  s.setMem (s.mem.writeBytes a bs)

/-- The state with other parameters. -/
def under (cfg : Config) (s : State) : State :=
  { s with cfg := cfg }

/-- The state with other answers of the sink. -/
def answering (k : Sink) (s : State) : State :=
  { s with sink := k }

/-- The outcome is a next state with a property. -/
def nextWith (o : Result) (p : State → Bool) : Bool :=
  match o with
  | .next t => p t
  | _ => false

/-- The outcome is this fault. -/
def faultIs (o : Result) (f : Fault) : Bool :=
  match o with
  | .fault g => g == f
  | _ => false

theorem exists_next {o : Result} (h : nextWith o (fun _ => true) = true) : ∃ t, o = .next t := by
  cases o with
  | next t => exact ⟨t, rfl⟩
  | fault _ => exact nomatch h
  | refused _ => exact nomatch h

theorem exists_next_with {o : Result} {p : State → Bool} (h : nextWith o p = true) :
    ∃ t, o = .next t ∧ p t = true := by
  cases o with
  | next t => exact ⟨t, rfl, h⟩
  | fault _ => exact nomatch h
  | refused _ => exact nomatch h

theorem fault_of {o : Result} {f : Fault} (h : faultIs o f = true) : o = .fault f := by
  cases o with
  | next _ => exact nomatch h
  | fault g => rw [show g = f by simpa [faultIs] using h]
  | refused _ => exact nomatch h

theorem holdsAt_of {s : State} {a : Nat} {bs : List Byte} (h : a + bs.length ≤ s.cfg.memSize)
    (hb : (List.range bs.length).map (fun k => s.byte (a + k)) = bs) : s.HoldsAt a bs :=
  ⟨h, fun k hk => by
    have hr : k < ((List.range bs.length).map fun k => s.byte (a + k)).length := by simpa using hk
    have : ((List.range bs.length).map fun k => s.byte (a + k))[k] = s.byte (a + k) := by simp
    rw [← this]
    simp only [hb]⟩

/-! ## Decoding: words written out from the format table R62 and the opcode map R65 -/

theorem test_decode_moveIf : decode [0b00000001, 0b00000001, 0b00000010, 0b00000011, 0xFF] =
    .ok (.moveIf 1 2 3, [0xFF]) := by decide

theorem test_decode_store : decode [0b00000010, 0b00000001, 0b00000010] = .ok (.store 1 2, []) := by decide

theorem test_decode_load : decode [0b00000011, 0b00000001, 0b00000010] = .ok (.load 1 2, []) := by decide

theorem test_decode_loadImm : decode [0b00000100, 0b00000001, 0b00110100, 0b00010010] =
    .ok (.loadImm 1 0x1234, []) := by decide

theorem test_decode_sub : decode [0b00000101, 0b00000011, 0b00000001, 0b00000010] =
    .ok (.sub 3 1 2, []) := by decide

theorem test_decode_out : decode [0b00000110, 0b00000001] = .ok (.out 1, []) := by decide

theorem test_decode_halt : decode [0b00000111] = .ok (.halt, []) := by decide

theorem test_decode_outNumber : decode [0b00001000, 0b00000001] = .ok (.outNumber 1, []) := by decide

/-- R66: 0 and 9 are no opcodes; R63: a register byte of 255 decodes. -/
theorem test_decode_illegal_and_wide : decode [0x00] = .error (.wrongInstruction 0x00) ∧
    decode [0x09, 0, 0, 0] = .error (.wrongInstruction 0x09) ∧
    decode [0x06, 0xFF] = .ok (.out 255, []) := by decide

/-- R103: the first missing byte. -/
theorem test_decode_missing : decode [0x01, 0x01] = .error (.missingByte 2) ∧
    decode [0x08] = .error (.missingByte 1) := by decide

/-- The table's numbering: byte 0 is bits 7..0. -/
theorem test_decodeTableWord : decodeTableWord 32 0x02010305 = some (.sub 3 1 2) ∧
    decodeTableWord 8 0x07 = some .halt ∧ decodeTableWord 8 0x00 = none ∧
    decodeTableWord 8 0x04 = some (.loadImm 0 0) := by decide

/-- R68: the spec's own spelling. -/
theorem test_asm : (Instr.loadImm 1 5).asm = "load-imm r1, 5" ∧ (Instr.sub 3 1 2).asm = "sub r3, r1, r2" ∧
    Instr.halt.asm = "halt" := by decide

/-! ## WellFormed: an ill-formed term for each register operand -/

theorem test_wf_moveIf : ¬(Instr.moveIf 16 0 0).WellFormed ∧ ¬(Instr.moveIf 0 16 0).WellFormed ∧
    ¬(Instr.moveIf 0 0 16).WellFormed ∧ (Instr.moveIf 15 15 15).WellFormed := by decide

theorem test_wf_store : ¬(Instr.store 16 0).WellFormed ∧ ¬(Instr.store 0 255).WellFormed ∧
    (Instr.store 15 15).WellFormed := by decide

theorem test_wf_load : ¬(Instr.load 16 0).WellFormed ∧ ¬(Instr.load 0 255).WellFormed ∧
    (Instr.load 15 15).WellFormed := by decide

theorem test_wf_loadImm : ¬(Instr.loadImm 16 0).WellFormed ∧ (Instr.loadImm 15 0xFFFF).WellFormed := by decide

theorem test_wf_sub : ¬(Instr.sub 16 0 0).WellFormed ∧ ¬(Instr.sub 0 16 0).WellFormed ∧
    ¬(Instr.sub 0 0 16).WellFormed ∧ (Instr.sub 15 15 15).WellFormed := by decide

theorem test_wf_outputs : ¬(Instr.out 16).WellFormed ∧ ¬(Instr.outNumber 16).WellFormed ∧
    (Instr.out 15).WellFormed ∧ (Instr.outNumber 15).WellFormed ∧ Instr.halt.WellFormed := by decide

/-! ## One step of each instruction -/

/-- V8: a jump to `x[2] + 4`. -/
theorem test_moveIf_jumps : nextWith (step (bytesAt 20 [0x01, 0x00, 0x02, 0x03] (regs [(0, 20), (2, 100), (3, 1)])))
    (fun t => t.ip == 104 && t.reg 2 == 100) = true := by decide

/-- V4, V9: the condition is the destination's old value; `x[0]` reads as the instruction's own address. -/
theorem test_moveIf_condition : nextWith (exec (.moveIf 1 2 1) (regs [(2, 9)]))
      (fun t => t.reg 1 == 0 && t.ip == 4) = true ∧
    nextWith (exec (.moveIf 5 0 3) (regs [(0, 20), (3, 1)])) (fun t => t.reg 5 == 20 && t.ip == 24) = true := by
  decide

/-- V20: the bytes in little-endian order, with its neighbours left alone. -/
theorem test_store_little_endian : nextWith (exec (.store 1 2) (regs [(1, 0x100), (2, 0x11223344)]))
    (fun t => t.mem == [(0x100, 0x44), (0x101, 0x33), (0x102, 0x22), (0x103, 0x11)] && t.ip == 3) = true := by
  decide

/-- V21, V22: the last word of memory, and one byte further. -/
theorem test_store_at_the_end : nextWith (exec (.store 1 2) (regs [(1, 4092), (2, 0xAABBCCDD)]))
      (fun t => t.byte 4095 == 0xAA && t.byte 4092 == 0xDD) = true ∧
    faultIs (exec (.store 1 2) (regs [(1, 4093), (2, 1)])) (.noMem 4093) = true := by decide

/-- V34: a load of the instruction's own bytes. -/
theorem test_load_own_bytes : nextWith (step (bytesAt 0x30 [0x03, 0x01, 0x00] (regs [(0, 0x30)])))
    (fun t => t.reg 1 == 0x00000103 && t.ip == 0x33) = true := by decide

/-- V30, V32: an indirect jump; an address at the capacity. -/
theorem test_load_jump_and_fault :
    nextWith (exec (.load 0 2) (bytesAt 0x100 [0x50] (regs [(2, 0x100)]))) (fun t => t.ip == 0x53) = true ∧
    faultIs (exec (.load 1 2) (regs [(2, 4096)])) (.noMem 4096) = true := by decide

/-- V42: the sign extension. -/
theorem test_loadImm_sign : nextWith (step (bytesAt 0 [0x04, 0x01, 0x00, 0x80] State.reset))
    (fun t => t.reg 1 == 0xFFFF8000 && t.ip == 4) = true := by decide

/-- V47, V48: the boundary of the IP advance, and the parameter `wrap`. -/
theorem test_loadImm_overflow : faultIs (exec (.loadImm 0 0xFFFC) State.reset) (.ipOverflow 0xFFFFFFFC) = true ∧
    nextWith (exec (.loadImm 0 0xFFFB) State.reset) (fun t => t.ip == 0xFFFFFFFF) = true ∧
    nextWith (exec (.loadImm 0 0xFFFC) (under ⟨4096, .wrap, .raw⟩ State.reset)) (fun t => t.ip == 0) = true := by
  decide

/-- V50: the wrapping difference. -/
theorem test_sub_wraps : nextWith (step (bytesAt 0 [0x05, 0x03, 0x01, 0x02] (regs [(1, 5), (2, 10)])))
    (fun t => t.reg 3 == 0xFFFFFFFB && t.ip == 4) = true := by decide

/-- V57: a relative jump. -/
theorem test_sub_relative_jump : nextWith (exec (.sub 0 0 5) (regs [(0, 20), (5, 8)])) (fun t => t.ip == 16) = true := by
  decide

/-- V61, V63: the low byte alone; both encodings of 0xFF. -/
theorem test_out_bytes : nextWith (exec (.out 1) (regs [(1, 0x12345641)])) (fun t => t.output == [0x41] && t.ip == 2) = true ∧
    nextWith (exec (.out 1) (regs [(1, 0xFF)])) (fun t => t.output == [0xFF]) = true ∧
    nextWith (exec (.out 1) (under ⟨4096, .abort, .utf8⟩ (regs [(1, 0xFF)]))) (fun t => t.output == [0xC3, 0xBF]) = true := by
  decide

/-- V66, R324: a refused and an unanswered request. -/
theorem test_out_refused : faultIs (exec (.out 1) (answering (.failing 0 1) (regs [(1, 65)]))) (.outputError [0x41]) = true ∧
    faultIs (exec (.out 1) (answering (.failing 0 0) (regs [(1, 65)]))) (.outputError []) = true ∧
    faultIs (exec (.out 1) (answering (.silent 0) (regs [(1, 65)]))) .sinkNeverAnswers = true := by decide

/-- V70, V74: a negative number and the most negative one. -/
theorem test_outNumber_text : nextWith (exec (.outNumber 1) (regs [(1, 0xFFFFFFFF)])) (fun t => t.output == [0x2D, 0x31]) = true ∧
    nextWith (exec (.outNumber 1) (regs [(1, 0x80000000)])) (fun t => t.output ==
      [0x2D, 0x32, 0x31, 0x34, 0x37, 0x34, 0x38, 0x33, 0x36, 0x34, 0x38]) = true := by decide

/-- V71, V76, V78: zero, the instruction's own address, and a part of a refused text. -/
theorem test_outNumber_corners : nextWith (exec (.outNumber 1) State.reset) (fun t => t.output == [0x30]) = true ∧
    nextWith (exec (.outNumber 0) (regs [(0, 36)])) (fun t => t.output == [0x33, 0x36] && t.ip == 38) = true ∧
    faultIs (exec (.outNumber 1) (answering (.failing 0 1) (regs [(1, 0xFFFFFFFF)]))) (.outputError [0x2D]) = true := by
  decide

/-- V80, V81: halt, and halt in the last byte of memory. -/
theorem test_halt : nextWith (step (bytesAt 14 [0x07] (regs [(0, 14)]))) (fun t => t.ip == 15 && t.signal == .halt) = true ∧
    nextWith (step (bytesAt 4095 [0x07] (regs [(0, 4095)]))) (fun t => t.ip == 4096 && t.signal == .halt) = true := by
  decide

/-! ## The cycle's errors and their order -/

/-- E2, E4, E5. -/
theorem test_fetch_errors : faultIs (step (bytesAt 0 [0xFF] State.reset)) (.wrongInstruction 0xFF) = true ∧
    faultIs (step (regs [(0, 4096)])) (.noMem 4096) = true ∧
    faultIs (step (regs [(0, 0xFFFFFFFF)])) (.noMem 0xFFFFFFFF) = true := by decide

/-- E7, E9: a missing operand byte; it comes before the register check. -/
theorem test_fetch_aborts : faultIs (step (bytesAt 4095 [0x06] (regs [(0, 4095)]))) (.operandPastEnd 4096) = true ∧
    faultIs (step (bytesAt 4094 [0x01, 0x20] (regs [(0, 4094)]))) (.operandPastEnd 4096) = true := by decide

/-- V10, V12, V58: the largest offending register, whatever the condition. -/
theorem test_noReg : faultIs (step (bytesAt 0 [0x01, 0x10, 0x02, 0x11] State.reset)) (.noReg 17) = true ∧
    faultIs (step (bytesAt 0 [0x01, 0x10, 0x01, 0x01] State.reset)) (.noReg 16) = true ∧
    faultIs (step (bytesAt 0 [0x05, 0x01, 0x11, 0x10] State.reset)) (.noReg 17) = true := by decide

/-- V93 to V96: set-register and IP-adjust. -/
theorem test_host_operations : faultIs (setRegister 16 5 State.reset) (.noReg 16) = true ∧
    nextWith (setRegister 0 8 State.reset) (fun t => t.ip == 8) = true ∧
    nextWith (advanceIp (-4) (regs [(0, 10)])) (fun t => t.ip == 6) = true ∧
    nextWith (advanceIp (-11) (regs [(0, 10)])) (fun _ => true) = false := by decide

/-- V90, S1: construction from one byte, and the first step of the machine from the empty buffer. -/
theorem test_construct : nextWith (construct Config.default [0x07]) (fun t => t.mem == [(0, 0x07)] && t.ip == 0) = true ∧
    faultIs (step State.reset) (.wrongInstruction 0) = true := by decide

/-- R300, R307: the table's ordinals, the aborts, and the stuck step. -/
theorem test_fault_kinds : [Fault.memoryOverflow, .wrongInstruction 9, .noReg 16, .noMem 4096, .outputError [],
      .nonExistingInstruction, .nonExistingFormat, .readPastMemoryEnd].map Fault.kind =
      (List.range 8).map FaultKind.error ∧
    [Fault.operandPastEnd 4096, .ipOverflow 0xFFFFFFFF].map Fault.kind = [.abort, .abort] ∧
    Fault.sinkNeverAnswers.kind = .stuck := by decide

/-- R112, R323: a call's sink starts with nothing sent, whatever an earlier call sent. -/
theorem test_stepWith : nextWith (stepWith (.failing 1 0) (bytesAt 0 [0x06, 0x00] { State.reset with output := [0x41] }))
    (fun t => t.output == [0x00] && t.sink == .failing 0 0) = true := by decide

/-- A word placed for the next fetch is the first instruction after reset. -/
theorem test_withFetchWord : nextWith (step (State.reset.withFetchWord 32 0x00050104)) (fun t => t.reg 1 == 5) = true := by
  decide

/-! ## Witnesses: for every statement with hypotheses, values that meet all of them -/

theorem witness_ConstructionCopiesTheBuffer : [1#8, 0, 2, 3].length ≤ (Config.mk 4 .abort .raw).memSize ∧
    (Config.mk 4 .abort .raw).memSize < [1#8, 0, 2, 3, 4].length ∧ ([] : List Byte).length ≤ Config.default.memSize := by
  decide

theorem witness_ConstructedMachinesMeetTheInvariant : (Config.mk 1 .wrap .utf8).wf ∧
    ∃ m, construct (Config.mk 1 .wrap .utf8) [7] = .next m :=
  ⟨by decide, exists_next (by decide)⟩

/-- A store at the last word of memory. -/
def storing : State :=
  bytesAt 0 [0x02, 0x01, 0x02] (regs [(1, 4092), (2, 0xAABBCCDD)])

theorem witness_StepKeepsTheInvariant : storing.Inv ∧ ∃ t, step storing = .next t :=
  ⟨by decide, exists_next (by decide)⟩

theorem witness_EqualBytesAreEqualMemory : Memory.wf 8 [(3, 1), (7, 255)] ∧
    Memory.wf 8 ((Memory.write [(3, 1)] 5 9).writeBytes 5 [0, 0, 255]) ∧
    ∀ a, Memory.read [(3, 1), (7, 255)] a = ((Memory.write [(3, 1)] 5 9).writeBytes 5 [0, 0, 255]).read a :=
  ⟨by decide, by decide, fun a => by
    rw [show (Memory.write [(3, 1)] 5 9).writeBytes 5 [0, 0, 255] = [(3, 1), (7, 255)] by decide]⟩

theorem witness_EncodeUndoesDecode : decode [0x04, 0x10, 0xFF, 0x80, 0x07] = .ok (.loadImm 16 0x80FF, [0x07]) := by
  decide

theorem witness_ExactlyTheIllegalOpcodesAreRefused : (1 ≤ (1#8).toNat ∧ (1#8).toNat ≤ 8 ∧ 3 ≤ [0#8, 0, 0].length) ∧
    (1 ≤ (8#8).toNat ∧ (8#8).toNat ≤ 8) ∧ 9 ≤ (9#8).toNat ∧ (0#8).toNat = 0 := by decide

theorem witness_TheOpcodeByteFixesTheLength : decode (0x07 :: [0x08, 0x01]) = .ok (.halt, [0x08, 0x01]) ∧
    decode (0x08 :: [0x01]) = .ok (.outNumber 1, []) ∧ decode (0x03 :: [1, 2, 3]) = .ok (.load 1 2, [3]) ∧
    decode (0x05 :: [1, 2, 3]) = .ok (.sub 1 2 3, []) := by decide

theorem witness_StepRunsTheDecodedInstruction : storing.ip.toNat < storing.cfg.memSize ∧
    decode (fetchBytes storing) = .ok (.store 1 2, [0x00]) := by decide

/-- An instruction that ends exactly at the end of memory, and one with a register that does not exist. -/
theorem witness_StepRunsTheInstructionInMemory :
    (bytesAt 4093 [0x02, 0x01, 0x02] (regs [(0, 4093)])).HoldsAt 4093 (encode (.store 1 2)) ∧
    (bytesAt 0 [0x06, 0xFF] State.reset).HoldsAt 0 (encode (.out 255)) :=
  ⟨holdsAt_of (by decide) (by decide), holdsAt_of (by decide) (by decide)⟩

theorem witness_FetchChecksTheInstructionPointer : (regs [(0, 4096)]).cfg.memSize ≤ (regs [(0, 4096)]).ip.toNat ∧
    (regs [(0, 4095)]).ip.toNat < (regs [(0, 4095)]).cfg.memSize := by decide

theorem witness_IllegalOpcodeEndsTheStep : (regs [(0, 4095)]).ip.toNat < (regs [(0, 4095)]).cfg.memSize ∧
    (0#8 = (regs [(0, 4095)]).byte 4095 ∧ (0#8).toNat = 0) := by decide

theorem witness_StraddlingInstructionAborts :
    let s := bytesAt 4094 [0x03, 0x01] (regs [(0, 4094)])
    s.ip.toNat < s.cfg.memSize ∧ opcodeLength (s.byte s.ip.toNat) = some 3 ∧ s.cfg.memSize < s.ip.toNat + 3 := by
  decide

theorem witness_RegisterOperandsAreValidatedFirst :
    (17#8 ∈ (Instr.sub 16 17 0).regOps ∧ 16 ≤ (17#8).toNat ∧
      ∀ j ∈ (Instr.sub 16 17 0).regOps, j.toNat ≤ (17#8).toNat) ∧
    (16#8 ∈ (Instr.loadImm 16 0).regOps ∧ 16 ≤ (16#8).toNat) ∧ (Instr.sub 15 0 15).WellFormed := by decide

theorem witness_TheNextStepRunsTheLoadedWord : (regs [(0, 4092)]).ip.toNat + 4 ≤ (regs [(0, 4092)]).cfg.memSize ∧
    decodeTableWord 24 0x020103 = some (.load 1 2) := by decide

/-- Both clauses, with the destination `x[0]` at the largest value that does not overflow. -/
theorem witness_MoveIfMovesExactlyWhenTheConditionHolds :
    let s := regs [(2, 0xFFFFFFFB), (3, 1)]
    (s.reg 3 ≠ 0#32 ∧ s.CanAdvance (s.ipAfter 0 (s.reg 2)) 4) ∧ (s.reg 4 = 0#32 ∧ s.CanAdvance s.ip 4) := by decide

theorem witness_StoreWritesFourLittleEndianBytes :
    (storing.reg 1).toNat + 4 ≤ storing.cfg.memSize ∧ storing.CanAdvance storing.ip 3 := by decide

theorem witness_LoadReadsFourLittleEndianBytes :
    let s := bytesAt 4092 [0x44, 0x33, 0x22, 0x11] (regs [(2, 4092)])
    4092 = (s.reg 2).toNat ∧ 4092 + 4 ≤ s.cfg.memSize ∧
      0x11223344 = (s.byte 4092).toNat + 256 * (s.byte (4092 + 1)).toNat + 65536 * (s.byte (4092 + 2)).toNat
        + 16777216 * (s.byte (4092 + 3)).toNat ∧
      s.CanAdvance (s.ipAfter 0 (BitVec.ofNat 32 0x11223344)) 3 := by decide

theorem witness_LoadImmWritesTheSignedImmediate :
    State.reset.CanAdvance (State.reset.ipAfter 0 (BitVec.ofInt 32 (0xFFFB#16).toInt)) 4 ∧
    State.reset.CanAdvance (State.reset.ipAfter 1 (BitVec.ofInt 32 (0xFFFF#16).toInt)) 4 := by decide

theorem witness_SubWritesTheWrappedDifference :
    let s := regs [(1, 5), (2, 10)]
    (0xFFFFFFFB#32).toNat = ((s.reg 1).toNat + 2 ^ 32 - (s.reg 2).toNat) % 2 ^ 32 ∧
      s.CanAdvance (s.ipAfter 0 0xFFFFFFFB#32) 4 := by decide

/-- The clauses meet at 0x80. -/
theorem witness_OutSendsTheLowByteAsOneCharacter :
    let s := under ⟨4096, .abort, .utf8⟩ (answering (.failing 1 0) (regs [(1, 0x180), (2, 0x17F)]))
    s.sink.answer = .ok (.failing 0 0) ∧ s.CanAdvance s.ip 2 ∧
      (0x80 = (s.reg 1).toNat % 256 ∧ s.cfg.outByteEncoding = .utf8) ∧
      (0x7F = (s.reg 2).toNat % 256 ∧ 0x7F < 0x80) := by decide

theorem witness_OutNumberSendsTheSignedText :
    let s := regs [(1, 0x80000000), (2, 0x7FFFFFFF)]
    s.sink.answer = .ok .accepting ∧ s.CanAdvance s.ip 2 ∧
      (-2147483648 : Int) = (if (s.reg 1).toNat < 2 ^ 31 then ((s.reg 1).toNat : Int) else (s.reg 1).toNat - 2 ^ 32) ∧
      (2147483647 : Int) = (if (s.reg 2).toNat < 2 ^ 31 then ((s.reg 2).toNat : Int) else (s.reg 2).toNat - 2 ^ 32) := by
  decide

theorem witness_HaltOnlyAdvancesAndSignals : (regs [(0, 0xFFFFFFFE)]).CanAdvance (regs [(0, 0xFFFFFFFE)]).ip 1 := by
  decide

theorem witness_DecimalTextIsSignAndDigits :
    ((-2 ^ 31 : Int) ≤ -2 ^ 31 ∧ (-2 ^ 31 : Int) < 2 ^ 31 ∧ (-2 ^ 31 : Int) < 0) ∧
    ((-2 ^ 31 : Int) ≤ 0 ∧ (0 : Int) < 2 ^ 31) ∧ dec (-2 ^ 31) ≠ dec 0 := by decide

theorem witness_AccessOutsideMemoryFails :
    let s := regs [(1, 4093), (2, 0xFFFFFFFF)]
    s.cfg.memSize < (s.reg 1).toNat + 4 ∧ s.cfg.memSize < (s.reg 2).toNat + 4 := by decide

theorem witness_IpAdvanceOverflowAborts :
    let s := bytesAt 0x100 [0xFD, 0xFF, 0xFF, 0xFF] (regs [(2, 0xFFFFFFFC), (3, 1), (4, 0x100)])
    s.cfg.ipAdvanceOverflow = .abort ∧
      (s.reg 3 ≠ 0#32 ∧ 2 ^ 32 ≤ (s.ipAfter 0 (s.reg 2)).toNat + 4) ∧
      ((s.reg 4).toNat + 4 ≤ s.cfg.memSize ∧
        2 ^ 32 ≤ (s.ipAfter 0 (s.mem.readWord (s.reg 4).toNat)).toNat + 3) ∧
      2 ^ 32 ≤ (s.ipAfter 0 (sext32 0xFFFC)).toNat + 4 ∧
      2 ^ 32 ≤ (s.ipAfter 0 (s.reg 5 - s.reg 3)).toNat + 4 := by decide

theorem witness_RefusedOutputIsAnOutputError : (answering (.failing 0 1) State.reset).sink = .failing 0 1 := by decide

theorem witness_UnansweredOutputIsStuck : (answering (.silent 0) State.reset).sink = .silent 0 := by decide

theorem witness_RegisterInstructionsFrame : (∃ t, exec (.moveIf 1 2 3) storing = .next t) ∧
    (∃ t, exec (.load 0 1) storing = .next t) ∧ (∃ t, exec (.loadImm 15 0x8000) storing = .next t) ∧
    ∃ t, exec (.sub 1 1 2) storing = .next t :=
  ⟨exists_next (by decide), exists_next (by decide), exists_next (by decide), exists_next (by decide)⟩

theorem witness_StoreFrame : ∃ t, exec (.store 1 2) storing = .next t :=
  exists_next (by decide)

theorem witness_OutputAndHaltFrame : (∃ t, exec (.out 1) storing = .next t) ∧
    (∃ t, exec (.outNumber 2) storing = .next t) ∧ ∃ t, exec .halt storing = .next t :=
  ⟨exists_next (by decide), exists_next (by decide), exists_next (by decide)⟩

theorem witness_OnlyStoreChangesMemory : ∃ t, step storing = .next t ∧ t.byte 4095 ≠ storing.byte 4095 := by
  obtain ⟨t, h, ht⟩ := exists_next_with (o := step storing) (p := fun t => t.byte 4095 != storing.byte 4095) (by decide)
  exact ⟨t, h, by simpa using ht⟩

theorem witness_OnlyTheDestinationRegisterChanges :
    let s := bytesAt 0 [0x04, 0x0F, 0x01, 0x00] State.reset
    ∃ t, step s = .next t ∧ (15 : Reg) ≠ 0 ∧ t.reg 15 ≠ s.reg 15 := by
  obtain ⟨t, h, ht⟩ := exists_next_with (o := step (bytesAt 0 [0x04, 0x0F, 0x01, 0x00] State.reset))
    (p := fun t => t.reg 15 != (bytesAt 0 [0x04, 0x0F, 0x01, 0x00] State.reset).reg 15) (by decide)
  exact ⟨t, h, by decide, by simpa using ht⟩

theorem witness_OnlyOutputInstructionsReachTheSink :
    let s := bytesAt 0 [0x08, 0x00] State.reset
    ∃ t, step s = .next t ∧ (t.output ≠ s.output ∨ t.sink ≠ s.sink) := by
  obtain ⟨t, h, ht⟩ := exists_next_with (o := step (bytesAt 0 [0x08, 0x00] State.reset))
    (p := fun t => t.output != (bytesAt 0 [0x08, 0x00] State.reset).output) (by decide)
  exact ⟨t, h, .inl (by simpa using ht)⟩

theorem witness_OnlyHaltSignalsHalt : (∃ t, step (bytesAt 4095 [0x07] (regs [(0, 4095)])) = .next t) ∧
    ∃ t, step storing = .next t :=
  ⟨exists_next (by decide), exists_next (by decide)⟩

theorem witness_StepMovesPastTheInstruction : storing.cfg.wf ∧ (∃ t, step storing = .next t) ∧
    opcodeLength (storing.byte storing.ip.toNat) = some 3 ∧
    ¬storing.WritesIp :=
  ⟨by decide, exists_next (by decide), by decide, by decide⟩

/-- The move-if that does not move, with destination `x[0]`. -/
theorem witness_StepMovesPastTheInstruction_notMoved :
    let s := bytesAt 0 [0x01, 0x00, 0x01, 0x02] State.reset
    s.cfg.wf ∧ (∃ t, step s = .next t) ∧ opcodeLength (s.byte s.ip.toNat) = some 4 ∧ ¬s.WritesIp :=
  ⟨by decide, exists_next (by decide), by decide, by decide⟩

theorem witness_OverflowOnlyAfterWritingTheInstructionPointer :
    let s := bytesAt 0 [0x04, 0x00, 0xFC, 0xFF] State.reset
    s.cfg.wf ∧ step s = .fault (.ipOverflow 0xFFFFFFFC) :=
  ⟨by decide, fault_of (by decide)⟩

theorem witness_StepRaisesOnlyReachableErrors : step State.reset = .fault (.wrongInstruction 0) :=
  fault_of (by decide)

theorem witness_StepDependsOnStateAndAnswersAlone :
    let s' : State := { storing with output := [0x41], signal := .halt }
    s'.cfg = storing.cfg ∧ s'.regs = storing.regs ∧ s'.mem = storing.mem ∧ s'.sink = storing.sink ∧
      (∃ t, step storing = .next t) ∧ step (regs [(0, 4096)]) = .fault (.noMem 4096) :=
  ⟨rfl, rfl, rfl, rfl, exists_next (by decide), fault_of (by decide)⟩

theorem witness_LoadAfterStoreGivesTheValue :
    let s := regs [(1, 4092), (2, 0xAABBCCDD)]
    ∃ t, exec (.store (regByte 1) (regByte 2)) s = .next t ∧ t.cfg = t.cfg ∧
      (∀ i, i < 4 → t.byte ((s.reg 1).toNat + i) = t.byte ((s.reg 1).toNat + i)) ∧ t.reg 1 = s.reg 1 ∧
      (3 : Reg) ≠ 0 ∧ t.CanAdvance t.ip 3 := by
  obtain ⟨t, h, ht⟩ := exists_next_with (o := exec (.store (regByte 1) (regByte 2)) (regs [(1, 4092), (2, 0xAABBCCDD)]))
    (p := fun t => t.reg 1 == 4092 && decide (t.CanAdvance t.ip 3)) (by decide)
  simp only [Bool.and_eq_true, beq_iff_eq, decide_eq_true_eq] at ht
  exact ⟨t, h, rfl, fun _ _ => rfl, ht.1, by decide, ht.2⟩

theorem witness_StoreIsSeenByTheNextFetch :
    let s := bytesAt 4089 [0x02, 0x01, 0x02] (regs [(0, 4089), (1, 4092), (2, 0x107)])
    s.cfg.wf ∧ s.HoldsAt s.ip.toNat (encode (.store (regByte 1) (regByte 2))) ∧
      (s.reg 1).toNat = s.ip.toNat + 3 ∧ (s.reg 2).toNat % 256 = 7 ∧ ∃ t, step s = .next t :=
  ⟨by decide, holdsAt_of (by decide) (by decide), by decide, by decide, exists_next (by decide)⟩

/-- The clauses of the register instructions: the source and the condition of move-if (the latter at the address 0 too),
and both operands of sub with the destination `x[0]`. -/
theorem witness_AnInstructionReadsItsOwnAddress :
    let s := bytesAt 4092 [0x01, 0x00, 0x00, 0x03] (regs [(0, 4092), (3, 1)])
    let m := bytesAt 4092 [0x01, 0x00, 0x03, 0x00] (regs [(0, 4092), (3, 1)])
    let z := bytesAt 0 [0x01, 0x05, 0x03, 0x00] State.reset
    let u := bytesAt 4092 [0x05, 0x00, 0x00, 0x03] (regs [(0, 4092), (3, 1)])
    let v := bytesAt 4092 [0x05, 0x00, 0x03, 0x00] (regs [(0, 4092), (3, 4093)])
    (s.cfg.wf ∧ s.HoldsAt s.ip.toNat (encode (.moveIf (regByte 0) (regByte 0) (regByte 3))) ∧ s.reg 3 ≠ 0#32) ∧
    (m.HoldsAt m.ip.toNat (encode (.moveIf (regByte 0) (regByte 3) (regByte 0))) ∧ m.ip ≠ 0#32 ∧
      m.CanAdvance (m.ipAfter 0 (m.reg 3)) 4) ∧
    (z.HoldsAt z.ip.toNat (encode (.moveIf (regByte 5) (regByte 3) (regByte 0))) ∧ z.ip = 0#32) ∧
    (u.HoldsAt u.ip.toNat (encode (.sub (regByte 0) (regByte 0) (regByte 3))) ∧
      u.CanAdvance (u.ipAfter 0 (u.ip - u.reg 3)) 4) ∧
    (v.HoldsAt v.ip.toNat (encode (.sub (regByte 0) (regByte 3) (regByte 0))) ∧
      v.CanAdvance (v.ipAfter 0 (v.reg 3 - v.ip)) 4) :=
  ⟨⟨by decide, holdsAt_of (by decide) (by decide), by decide⟩,
    ⟨holdsAt_of (by decide) (by decide), by decide, by decide⟩,
    ⟨holdsAt_of (by decide) (by decide), by decide⟩,
    ⟨holdsAt_of (by decide) (by decide), by decide⟩, ⟨holdsAt_of (by decide) (by decide), by decide⟩⟩

/-- The clauses of memory and output: a store over its own bytes, a store of its address at the end of memory, a load of
its own bytes and the byte after them, and the two outputs in the last bytes of memory. -/
theorem witness_AnInstructionReadsItsOwnAddress_memory :
    let s := bytesAt 4092 [0x02, 0x00, 0x03] (regs [(0, 4092)])
    let a := bytesAt 4093 [0x02, 0x03, 0x00] (regs [(0, 4093), (3, 4092)])
    let l := bytesAt 4092 [0x03, 0x01, 0x00, 0xFF] (regs [(0, 4092)])
    let o := bytesAt 4094 [0x06, 0x00] (regs [(0, 4094)])
    let n := bytesAt 4094 [0x08, 0x00] (regs [(0, 4094)])
    (s.HoldsAt s.ip.toNat (encode (.store (regByte 0) (regByte 3))) ∧ s.ip.toNat + 4 ≤ s.cfg.memSize) ∧
    (a.HoldsAt a.ip.toNat (encode (.store (regByte 3) (regByte 0))) ∧ (a.reg 3).toNat + 4 ≤ a.cfg.memSize) ∧
    (l.HoldsAt l.ip.toNat (encode (.load (regByte 1) (regByte 0))) ∧ l.ip.toNat + 4 ≤ l.cfg.memSize ∧
      4278190339 = 0x03 + 256 * (1 : Reg).val + 16777216 * (l.byte (l.ip.toNat + 3)).toNat ∧
      l.CanAdvance (l.ipAfter 1 (BitVec.ofNat 32 4278190339)) 3) ∧
    (o.HoldsAt o.ip.toNat (encode (.out (regByte 0))) ∧ o.sink.answer = .ok .accepting) ∧
    (n.HoldsAt n.ip.toNat (encode (.outNumber (regByte 0))) ∧ n.sink.answer = .ok .accepting) :=
  ⟨⟨holdsAt_of (by decide) (by decide), by decide⟩, ⟨holdsAt_of (by decide) (by decide), by decide⟩,
    ⟨holdsAt_of (by decide) (by decide), by decide, by decide, by decide⟩,
    ⟨holdsAt_of (by decide) (by decide), by decide⟩, ⟨holdsAt_of (by decide) (by decide), by decide⟩⟩

theorem witness_JumpAndNoOperationIdioms : (4 ≤ 4 ∧ 4 ≤ 32771) ∧ (4 ≤ 32771 ∧ 32771 ≤ 32771) ∧
    State.reset.CanAdvance State.reset.ip 4 := by decide

theorem witness_TwoSubtractionsAdd :
    let s := regs [(1, 0xFFFFFFFF), (2, 2)]
    (4 : Reg) ≠ 0 ∧ (3 : Reg) ≠ 0 ∧ (1 : Reg) ≠ 0 ∧ (4 : Reg) ≠ 1 ∧ s.reg 5 = 0#32 ∧
      ∃ t u, exec (.sub (regByte 4) (regByte 5) (regByte 2)) s = .next t ∧
        exec (.sub (regByte 3) (regByte 1) (regByte 4)) t = .next u := by
  obtain ⟨t, h, ht⟩ := exists_next_with
    (o := exec (.sub (regByte 4) (regByte 5) (regByte 2)) (regs [(1, 0xFFFFFFFF), (2, 2)]))
    (p := fun t => nextWith (exec (.sub (regByte 3) (regByte 1) (regByte 4)) t) fun _ => true) (by decide)
  obtain ⟨u, hu⟩ := exists_next ht
  exact ⟨by decide, by decide, by decide, by decide, by decide, t, u, h, hu⟩

theorem witness_ARunAtAHaltSucceedsAtOnce :
    let s := bytesAt 4095 [0x07] (regs [(0, 4095)])
    s.cfg.wf ∧ s.HoldsAt s.ip.toNat (encode .halt) :=
  ⟨by decide, holdsAt_of (by decide) (by decide)⟩

/-- Each kind of end is met: a halt, an error, an abort, each in the first step. -/
theorem witness_RunEndsAtTheFirstHaltOrError :
    (∃ t, step (bytesAt 0 [0x07] State.reset) = .next t ∧ t.signal = .halt) ∧
    (step State.reset = .fault (.wrongInstruction 0) ∧ (Fault.wrongInstruction 0).kind = .error 1) ∧
    (step (bytesAt 4095 [0x06] (regs [(0, 4095)])) = .fault (.operandPastEnd 4096) ∧
      (Fault.operandPastEnd 4096).kind = .abort) := by
  obtain ⟨t, h, ht⟩ := exists_next_with (o := step (bytesAt 0 [0x07] State.reset))
    (p := fun t => t.signal == .halt) (by decide)
  exact ⟨⟨t, h, by simpa using ht⟩, ⟨fault_of (by decide), rfl⟩, fault_of (by decide), rfl⟩

theorem witness_ViewsShowRegistersAndMemory : 0 < State.reset.cfg.memSize ∧ 4095 < State.reset.cfg.memSize := by decide

theorem witness_SetRegisterValidatesTheIndex : 0 < 16 ∧ 15 < 16 ∧ 16 ≤ 16 := by decide

theorem witness_IpAdjustAddsTheOffset :
    let s := regs [(0, 10)]
    (0 ≤ (s.ip.toNat : Int) + -10 ∧ (s.ip.toNat : Int) + -10 < 2 ^ 32) ∧ (s.ip.toNat : Int) + -11 < 0 ∧
      2 ^ 32 ≤ (s.ip.toNat : Int) + 4294967286 := by decide

end Sys2Proof.Tests
end

/-! ## Construction and the invariant -/

namespace Sys2Proof.Machine

/-- R35: memory filled with zeros lists nothing, and is in canonical form below every capacity. -/
theorem Memory.wf_nil (size : Nat) : Memory.wf size [] :=
  ⟨List.Pairwise.nil, by simp⟩

/-- R35: a buffer copied into zero-filled memory leaves it in canonical form below every capacity that holds the buffer. -/
theorem Memory.wf_writeBytes_nil {size : Nat} {bytes : List Byte} (h : bytes.length ≤ size) :
    (Memory.writeBytes [] 0 bytes).wf size :=
  Memory.wf_writeBytes bytes (Memory.wf_nil size) (by omega)

/-- R400: what construction does with a buffer the capacity holds. -/
theorem construct_of_le {cfg : Config} {bytes : List Byte} (h : bytes.length ≤ cfg.memSize) :
    construct cfg bytes = .next { State.reset with cfg := cfg, mem := Memory.writeBytes [] 0 bytes } :=
  if_neg (by omega)

/-- R301, R400: a buffer longer than the capacity makes no machine. -/
theorem construct_of_lt {cfg : Config} {bytes : List Byte} (h : cfg.memSize < bytes.length) :
    construct cfg bytes = .fault .memoryOverflow :=
  if_pos h

/-- R400: when construction answers a machine the buffer fitted, and which machine it is. -/
theorem construct_eq_next {cfg : Config} {bytes : List Byte} {m : State} (h : construct cfg bytes = .next m) :
    bytes.length ≤ cfg.memSize ∧
      m = { State.reset with cfg := cfg, mem := Memory.writeBytes [] 0 bytes } := by
  rcases Nat.lt_or_ge cfg.memSize bytes.length with hlt | hle
  · rw [construct_of_lt hlt] at h
    cases h
  · rw [construct_of_le hle] at h
    cases h
    exact ⟨hle, rfl⟩

/-- Settles O4: the buffer fitted, so copying it into empty memory kept the canonical form. -/
theorem constructedMachinesMeetTheInvariant : Obligations.ConstructedMachinesMeetTheInvariant := by
  intro cfg bytes m hcfg h
  obtain ⟨hfits, rfl⟩ := construct_eq_next h
  exact ⟨hcfg, Memory.wf_writeBytes_nil hfits⟩

/-- Settles O3: reset has the default capacity and lists no byte. -/
theorem resetMeetsTheInvariant : Obligations.ResetMeetsTheInvariant :=
  ⟨by decide, Memory.wf_reset⟩

end Sys2Proof.Machine

/-! ## What the effect of an instruction leaves unchanged -/

namespace Sys2Proof

/-- R22: the operand byte that names the destination register, of the four instructions that have one. -/
def Instr.dest : Instr → Option Byte
  | .moveIf a _ _ => some a
  | .load a _ => some a
  | .loadImm a _ => some a
  | .sub a _ _ => some a
  | _ => none

/-- R62, R65: the destination byte is the first operand byte, and only these opcodes have one. -/
theorem encode_of_dest {i : Instr} {k : Byte} (h : i.dest = some k) :
    ∃ op operands, encode i = op :: k :: operands ∧ op ∈ [0x01#8, 0x03#8, 0x04#8, 0x05#8] := by
  cases i with
  | moveIf | load | loadImm | sub => cases h; exact ⟨_, _, rfl, by decide⟩
  | store | out | halt | outNumber => exact nomatch h

/-- R60, R61: the opcode byte of an encoding fixes its length, for every instruction. -/
theorem encode_eq_cons (i : Instr) : Laws.EncodedLength.Statement i :=
  match i with
  | .moveIf a b c => Laws.EncodedLength.moveIf a b c
  | .store a b => Laws.EncodedLength.store a b
  | .load a b => Laws.EncodedLength.load a b
  | .loadImm a imm => Laws.EncodedLength.loadImm a imm
  | .sub a b c => Laws.EncodedLength.sub a b c
  | .out r => Laws.EncodedLength.out r
  | .halt => Laws.EncodedLength.halt
  | .outNumber r => Laws.EncodedLength.outNumber r

end Sys2Proof

namespace Sys2Proof.Machine

section Effect

variable {s u : State} {i : Instr} {len : Nat} {sig : Signal}

/-- R30: no effect writes the parameters. -/
theorem EffectOf.cfg_eq (h : EffectOf s i len sig u) : u.cfg = s.cfg := by
  cases h <;> rfl

/-- R61: the advance is by the length of the instruction's bytes. -/
theorem EffectOf.len_eq (h : EffectOf s i len sig u) : len = (encode i).length := by
  cases h <;> rfl

/-- R33: only a store writes memory, and its checked address keeps it below the capacity. -/
theorem EffectOf.mem_wf (h : EffectOf s i len sig u) (hs : s.mem.wf s.cfg.memSize) :
    u.mem.wf s.cfg.memSize := by
  cases h with
  | stored a b hr => exact Memory.wf_writeWord hs hr.2 _
  | moved | notMoved | loaded | immediate | subtracted | sentChar | halted | sentNumber => exact hs

/-- R33, R150: a byte that an effect changes is one of the four a store writes. -/
theorem EffectOf.store_of_byte_ne (h : EffectOf s i len sig u) {a : Nat} (ha : u.byte a ≠ s.byte a) :
    ∃ ra rb, i = .store (regByte ra) (regByte rb) ∧ (s.reg ra).toNat ≤ a ∧ a < (s.reg ra).toNat + 4 := by
  cases h with
  | stored ra rb hr =>
    have hin : ¬ (a < (s.reg ra).toNat ∨ (s.reg ra).toNat + 4 ≤ a) :=
      fun hout => ha (Memory.read_writeWord_outside _ _ _ _ hout)
    exact ⟨ra, rb, rfl, by omega, by omega⟩
  | moved | notMoved | loaded | immediate | subtracted | sentChar | halted | sentNumber =>
    exact absurd rfl ha

/-- R22: an instruction with a destination writes that register or nothing. -/
theorem EffectOf.of_dest (h : EffectOf s i len sig u) {k : Byte} (hd : i.dest = some k) :
    u = s ∨ ∃ d w, k = regByte d ∧ u = s.setReg d w := by
  cases h with
  | notMoved => exact .inl rfl
  | moved | loaded | immediate | subtracted => exact .inr ⟨_, _, (Option.some.inj hd).symm, rfl⟩
  | stored | sentChar | halted | sentNumber => exact nomatch hd

/-- R22: an instruction without a destination writes no register by its effect. -/
theorem EffectOf.regs_of_no_dest (h : EffectOf s i len sig u) (hd : i.dest = none) : u.regs = s.regs := by
  cases h with
  | moved | notMoved | loaded | immediate | subtracted => exact nomatch hd
  | stored | sentChar | halted | sentNumber => rfl

/-- R22: an effect leaves every register alone but the destination. -/
theorem EffectOf.reg_eq (h : EffectOf s i len sig u) {r : Reg} (hr : i.dest ≠ some (regByte r)) :
    u.reg r = s.reg r := by
  cases hd : i.dest with
  | none => rw [State.reg, h.regs_of_no_dest hd, State.reg]
  | some k =>
    rcases h.of_dest hd with rfl | ⟨d, w, rfl, rfl⟩
    · rfl
    · exact State.reg_setReg_ne _ _ fun hrd => hr (by rw [hd, hrd])

/-! ## The effect of the instruction that stands in memory -/

/-- R62: the opcode byte and the destination byte of an instruction that stands in memory. -/
theorem holdsAt_dest {a : Nat} {k : Byte} (h : s.HoldsAt a (encode i)) (hd : i.dest = some k) :
    s.byte a ∈ [0x01#8, 0x03#8, 0x04#8, 0x05#8] ∧ s.byte (a + 1) = k := by
  obtain ⟨op, operands, he, hop⟩ := encode_of_dest hd
  obtain ⟨hbyte, hoperands⟩ := holdsAt_encode h he
  exact ⟨hbyte ▸ hop, hoperands 0 (by simp)⟩

/-- R61: the length that the opcode byte in memory fixes. -/
theorem opcodeLength_of_holdsAt {a : Nat} (h : s.HoldsAt a (encode i)) :
    opcodeLength (s.byte a) = some (encode i).length := by
  obtain ⟨op, operands, he, hlen, -⟩ := encode_eq_cons i
  rw [(holdsAt_encode h he).1, hlen]

/-- R22, R140: an effect that does not leave `x[0]` alone is that of an instruction with destination byte 0 that is no
untaken move-if. -/
theorem EffectOf.ip_eq_or_writesIp (h : EffectOf s i len sig u) (hh : s.HoldsAt s.ip.toNat (encode i)) :
    u.ip = s.ip ∨ s.WritesIp := by
  by_cases hd : i.dest = some (regByte 0)
  swap
  · exact .inl (h.reg_eq hd)
  have hzero : s.byte (s.ip.toNat + 1) = 0x00#8 := (holdsAt_dest hh hd).2
  cases h with
  | notMoved => exact .inl rfl
  | moved a b c hc =>
    obtain ⟨hop, hoperands⟩ := holdsAt_encode hh rfl
    exact .inr ⟨hzero, .inr ⟨hop, c, hoperands 2 (by simp), hc⟩⟩
  | loaded | immediate | subtracted =>
    exact .inr ⟨hzero, .inl (by simp [(holdsAt_encode hh rfl).1])⟩
  | stored | sentChar | halted | sentNumber => exact nomatch hd

/-- C4: with a legal capacity an instruction that stands in memory ends below `2^32`. -/
theorem holdsAt_end_lt {a : Nat} {bs : List Byte} (hc : s.cfg.wf) (h : s.HoldsAt a bs) :
    a + bs.length < 2 ^ 32 := by
  have hcap := hc.2
  have hend := h.1
  omega

/-- R106, C4: with a legal capacity the advance past the bytes at the instruction pointer completes. -/
theorem canAdvance_of_holdsAt {bs : List Byte} (hc : s.cfg.wf) (h : s.HoldsAt s.ip.toNat bs) :
    s.CanAdvance s.ip bs.length :=
  .inl (holdsAt_end_lt hc h)

end Effect

/-! ## What every step keeps -/

/-- R109: a step that answers a next state is the effect of the instruction that stands at the instruction pointer, and
then the end of the step. -/
theorem step_effect {s t : State} (h : step s = .next t) :
    ∃ i len sig u, s.HoldsAt s.ip.toNat (encode i) ∧ EffectOf s i len sig u ∧ finish len sig u = .next t := by
  obtain ⟨i, hh, hx⟩ := step_eq_next_holds h
  obtain ⟨len, sig, u, hu, hf⟩ := exec_eq_next hx
  exact ⟨i, len, sig, u, hh, hu, hf⟩

/-- Settles O5: only a store writes memory, below the capacity, and the end of the step writes `x[0]` alone. -/
theorem stepKeepsTheInvariant : Obligations.StepKeepsTheInvariant := by
  intro s t ⟨hcfg, hmem⟩ hstep
  obtain ⟨i, len, sig, u, -, hu, hf⟩ := step_effect hstep
  obtain ⟨-, -, -, htcfg, htmem, -⟩ := finish_eq_next hf
  have hts : t.cfg = s.cfg := htcfg.trans hu.cfg_eq
  refine ⟨?_, hts⟩
  rw [State.Inv, hts, htmem]
  exact ⟨hcfg, hu.mem_wf hmem⟩

/-- Settles O33: the effect writes the destination or nothing, and the end of the step writes `x[0]` alone. -/
theorem registerInstructionsFrame : Obligations.RegisterInstructionsFrame := by
  intro s t a b c imm i hi hx
  have hd : i.dest = some a := by
    rcases hi with rfl | rfl | rfl | rfl <;> rfl
  obtain ⟨len, sig, u, hu, hf⟩ := exec_eq_next hx
  obtain ⟨-, -, hreg, hcfg, hmem, hsink, houtput, -⟩ := finish_eq_next hf
  refine ⟨fun r h0 hra => ?_, ?_⟩
  · rw [hreg r h0]
    exact hu.reg_eq fun h => hra (Option.some.inj (hd.symm.trans h)).symm
  · rw [SameSurroundings, hcfg, hsink, houtput]
    rcases hu.of_dest hd with rfl | ⟨d, w, -, rfl⟩ <;>
      exact ⟨fun n => congrArg (Memory.read · n) hmem, rfl, rfl, rfl⟩

/-- Settles O37: a changed byte is one of the four of a store, whose bytes stand at the instruction pointer. -/
theorem onlyStoreChangesMemory : Obligations.OnlyStoreChangesMemory := by
  intro s t a hstep hne
  obtain ⟨i, len, sig, u, hh, hu, hf⟩ := step_effect hstep
  obtain ⟨-, -, -, -, hmem, -⟩ := finish_eq_next hf
  rw [State.byte, hmem] at hne
  obtain ⟨ra, rb, rfl, hlo, hhi⟩ := hu.store_of_byte_ne hne
  obtain ⟨hop, hoperands⟩ := holdsAt_encode hh rfl
  exact ⟨hop, ra, hoperands 0 (by simp), hlo, hhi⟩

/-- Settles O38: a changed register other than `x[0]` is the destination of the instruction at the instruction
pointer. -/
theorem onlyTheDestinationRegisterChanges : Obligations.OnlyTheDestinationRegisterChanges := by
  intro s t r hstep h0 hne
  obtain ⟨i, len, sig, u, hh, hu, hf⟩ := step_effect hstep
  obtain ⟨-, -, hreg, -⟩ := finish_eq_next hf
  rw [hreg r h0] at hne
  exact holdsAt_dest hh (Decidable.not_not.mp fun hd => hne (hu.reg_eq hd))

/-- Settles O41: the effect left `x[0]` alone, and the instruction's bytes end in memory, below `2^32`. -/
theorem stepMovesPastTheInstruction : Obligations.StepMovesPastTheInstruction := by
  intro s t n hcfg hstep hn hw
  obtain ⟨i, len, sig, u, hh, hu, hf⟩ := step_effect hstep
  obtain ⟨-, hip, -⟩ := finish_eq_next hf
  have hlen : n = len := by
    rw [hu.len_eq]
    exact Option.some.inj (hn.symm.trans (opcodeLength_of_holdsAt hh))
  have hend := holdsAt_end_lt hcfg hh
  rw [← hu.len_eq] at hend
  rw [hip, (hu.ip_eq_or_writesIp hh).resolve_right hw, hlen, BitVec.toNat_add, BitVec.toNat_ofNat]
  omega

/-! ## Construction from the empty buffer -/

/-- Settles O2: the empty buffer fits every capacity and stores nothing. -/
theorem resetIsConstructionFromTheEmptyBuffer : Obligations.ResetIsConstructionFromTheEmptyBuffer :=
  ⟨construct_of_le (Nat.zero_le _), State.reset_reg, State.reset_byte⟩

/-! ## Canonical memories -/

/-- R9: in a memory whose addresses rise, a listed byte is what its address reads. -/
theorem Memory.read_of_mem {m : Memory} (hs : m.Pairwise fun x y => x.1 < y.1) {c : Host.Cell} (hc : c ∈ m) :
    m.read c.1 = c.2 := by
  induction m with
  | nil => exact nomatch hc
  | cons d m ih =>
    obtain ⟨hd, ht⟩ := List.pairwise_cons.mp hs
    rw [Memory.read]
    rcases List.mem_cons.mp hc with rfl | hc
    · exact if_pos rfl
    · rw [if_neg (Nat.ne_of_lt (hd c hc)), ih ht hc]

/-- R35: an address that does not read 0 is listed with what it reads. -/
theorem Memory.mem_of_read_ne_zero {m : Memory} {a : Nat} (h : m.read a ≠ 0#8) : (a, m.read a) ∈ m := by
  induction m with
  | nil => exact absurd rfl h
  | cons d m ih =>
    rw [Memory.read] at h ⊢
    split at h
    · next hd => rw [if_pos hd, ← hd]; exact List.mem_cons_self
    · next hd => rw [if_neg hd]; exact List.mem_cons_of_mem _ (ih h)

/-- R33, R35: a memory in canonical form lists exactly the non-zero bytes, at their addresses. -/
theorem Memory.mem_iff_read {size : Nat} {m : Memory} (h : m.wf size) (c : Host.Cell) :
    c ∈ m ↔ m.read c.1 = c.2 ∧ c.2 ≠ 0#8 := by
  constructor
  · exact fun hc => ⟨Memory.read_of_mem h.1 hc, (h.2 c hc).1⟩
  · rintro ⟨hr, h0⟩
    have hc := Memory.mem_of_read_ne_zero (hr ▸ h0)
    rwa [hr] at hc

/-- Settles O6: both list exactly the non-zero bytes, in the order of their addresses. -/
theorem equalBytesAreEqualMemory : Obligations.EqualBytesAreEqualMemory := by
  intro size m n hm hn hread
  have hasymm : Std.Asymm fun x y : Host.Cell => x.1 < y.1 := ⟨fun _ _ => Nat.lt_asymm⟩
  refine hm.1.eq_of_mem_iff hn.1 fun c => ?_
  rw [Memory.mem_iff_read hm, Memory.mem_iff_read hn, hread]

/-! ## Running the instruction that stands in memory -/

end Sys2Proof.Machine

namespace Sys2Proof

/-- R60 to R67: decoding takes exactly the bytes of an instruction. -/
theorem decode_encode_append (i : Instr) (rest : List Byte) : decode (encode i ++ rest) = .ok (i, rest) := by
  cases i with
  | loadImm a imm =>
    change Except.ok (Instr.loadImm a (concat16 (immHi imm) (immLo imm)), rest) = _
    rw [concat16_immHi_immLo]
  | moveIf | store | load | sub | out | halt | outNumber => rfl

end Sys2Proof

namespace Sys2Proof.Machine

/-- R103: bytes that stand in memory at the instruction pointer, no more than the longest instruction has, begin the
window of the fetch. -/
theorem fetchBytes_eq_append {s : State} {bs : List Byte} (h : s.HoldsAt s.ip.toNat bs)
    (hlen : bs.length ≤ maxLength) : fetchBytes s = bs ++ (fetchBytes s).drop bs.length := by
  obtain ⟨hend, hbytes⟩ := h
  have htake : (fetchBytes s).take bs.length = bs := by
    refine List.ext_getElem (by rw [List.length_take, fetchBytes_length]; omega) fun k _ hk => ?_
    rw [List.getElem_take, fetchBytes_getElem, hbytes k hk]
  conv_lhs => rw [← List.take_append_drop bs.length (fetchBytes s), htake]

/-- R109: the step runs the instruction whose bytes stand at the instruction pointer. -/
theorem step_of_holdsAt {s : State} {i : Instr} (h : s.HoldsAt s.ip.toNat (encode i)) : step s = exec i s := by
  obtain ⟨op, operands, he, -, hpos, hmax⟩ := encode_eq_cons i
  have hm : s.ip.toNat < s.cfg.memSize := by
    have := h.1
    omega
  apply step_of_fetch_ok
  rw [fetch_inMemory hm, fetchBytes_eq_append h hmax, decode_encode_append]

/-! ## When each instruction completes, and with what result -/

section Completes

variable {s : State}

theorem exec_moveIf_wrote {a b c : Reg} (hc : s.reg c ≠ 0#32) (h : s.CanAdvance (s.ipAfter a (s.reg b)) 4) :
    ∃ t, exec (.moveIf (regByte a) (regByte b) (regByte c)) s = .next t ∧ Wrote a (s.reg b) 4 s t := by
  rw [exec, execMoveIf_regs, if_neg hc]
  exact finish_wrote h

theorem exec_moveIf_onlyAdvanced (a b : Reg) {c : Reg} (hc : s.reg c = 0#32) (h : s.CanAdvance s.ip 4) :
    ∃ t, exec (.moveIf (regByte a) (regByte b) (regByte c)) s = .next t ∧ OnlyAdvanced 4 .cont s t := by
  rw [exec, execMoveIf_regs, if_pos hc]
  exact finish_onlyAdvanced .cont h

theorem exec_sub_wrote {a b c : Reg} (h : s.CanAdvance (s.ipAfter a (s.reg b - s.reg c)) 4) :
    ∃ t, exec (.sub (regByte a) (regByte b) (regByte c)) s = .next t ∧ Wrote a (s.reg b - s.reg c) 4 s t := by
  rw [exec, execSub_regs]
  exact finish_wrote h

theorem exec_store_stored {a : Reg} (b : Reg) (hr : (s.reg a).toNat + 4 ≤ s.cfg.memSize)
    (h : s.CanAdvance s.ip 3) :
    ∃ t, exec (.store (regByte a) (regByte b)) s = .next t ∧ Stored (s.reg a).toNat (s.reg b) 3 s t := by
  rw [exec, execStore_regs, storeWord_next _ ⟨by omega, hr⟩, andThen_next]
  exact finish_stored _ _ h

theorem exec_load_wrote {a b : Reg} (hr : (s.reg b).toNat + 4 ≤ s.cfg.memSize)
    (h : s.CanAdvance (s.ipAfter a (s.mem.readWord (s.reg b).toNat)) 3) :
    ∃ t, exec (.load (regByte a) (regByte b)) s = .next t ∧
      Wrote a (s.mem.readWord (s.reg b).toNat) 3 s t := by
  rw [exec, execLoad_regs, loadWord_next _ ⟨by omega, hr⟩, andThen_next]
  exact finish_wrote h

theorem exec_out_sent (r : Reg) {later : Sink} (ha : s.sink.answer = .ok later) (h : s.CanAdvance s.ip 2) :
    ∃ t, exec (.out (regByte r)) s = .next t ∧
      Sent (charBytes s.cfg.outByteEncoding (low8 (s.reg r))) later 2 s t := by
  rw [exec, execOut_regs, emit_ok _ ha, andThen_next]
  exact finish_sent _ later h

theorem exec_outNumber_sent (r : Reg) {later : Sink} (ha : s.sink.answer = .ok later)
    (h : s.CanAdvance s.ip 2) :
    ∃ t, exec (.outNumber (regByte r)) s = .next t ∧ Sent (dec (signed32 (s.reg r))) later 2 s t := by
  rw [exec, execOutNumber_regs, emit_ok _ ha, andThen_next]
  exact finish_sent _ later h

/-- R42: a word read from memory as a number. -/
theorem readWord_toNat (s : State) (a : Nat) :
    (s.mem.readWord a).toNat = (s.byte a).toNat + 256 * (s.byte (a + 1)).toNat +
      65536 * (s.byte (a + 2)).toNat + 16777216 * (s.byte (a + 3)).toNat :=
  wordOfBytes_toNat _ _ _ _

/-- R28, R151: the word at a load from `x[0]` is the load's own three bytes and the byte after them. -/
theorem readWord_of_holdsAt_load {d : Reg} {a : Nat}
    (h : s.HoldsAt a (encode (.load (regByte d) (regByte 0)))) :
    s.mem.readWord a = BitVec.ofNat 32 (0x03 + 256 * d.val + 16777216 * (s.byte (a + 3)).toNat) := by
  obtain ⟨hop, hoperands⟩ := holdsAt_encode h rfl
  have h1 : s.byte (a + 1) = regByte d := hoperands 0 (by simp)
  have h2 : s.byte (a + 2) = 0x00#8 := hoperands 1 (by simp)
  have hlt := (s.mem.readWord a).isLt
  apply BitVec.eq_of_toNat_eq
  rw [readWord_toNat, hop, h1, h2, regByte_toNat] at hlt ⊢
  simp only [BitVec.toNat_ofNat] at hlt ⊢
  omega

end Completes

/-- Settles O47: the step runs the instruction at the instruction pointer, whose operand `x[0]` is its own address; what
leaves `x[0]` at that address can advance, since the instruction ends in memory. -/
theorem anInstructionReadsItsOwnAddress : Obligations.AnInstructionReadsItsOwnAddress := by
  intro s hcfg
  refine ⟨fun d c h hc => ?_, fun d b h => ⟨fun h0 ha => ?_, fun h0 => ?_⟩, fun d c h ha => ?_,
    fun d b h ha => ?_, fun b h hr => ?_, fun a h hr => ?_, fun d v h hr hv ha => ?_,
    fun later hs => ⟨fun h => ?_, fun h => ?_⟩⟩ <;> rw [step_of_holdsAt h]
  · refine exec_moveIf_wrote hc ?_
    rw [State.reg_zero, State.ipAfter, ite_self]
    exact canAdvance_of_holdsAt hcfg h
  · exact exec_moveIf_wrote h0 ha
  · exact exec_moveIf_onlyAdvanced d b h0 (canAdvance_of_holdsAt hcfg h)
  · exact exec_sub_wrote ha
  · exact exec_sub_wrote ha
  · exact exec_store_stored b hr (canAdvance_of_holdsAt hcfg h)
  · exact exec_store_stored 0 hr (canAdvance_of_holdsAt hcfg h)
  · subst hv
    rw [← readWord_of_holdsAt_load h] at ha ⊢
    exact exec_load_wrote hr ha
  · exact exec_out_sent 0 hs (canAdvance_of_holdsAt hcfg h)
  · exact exec_outNumber_sent 0 hs (canAdvance_of_holdsAt hcfg h)

end Sys2Proof.Machine

/-! ## A word put where the next fetch reads -/

namespace Sys2Proof

/-- What it means that a table word decodes to an instruction. -/
theorem decodeTableWord_eq_some {nbits w : Nat} {i : Instr} (h : decodeTableWord nbits w = some i) :
    ∃ rest, decode (tableBytes nbits w) = .ok (i, rest) := by
  rw [decodeTableWord] at h
  split at h
  · next rest hd => exact ⟨rest, Option.some.inj h ▸ hd⟩
  · exact nomatch h

end Sys2Proof

namespace Sys2Proof.Machine

/-- R51: bytes put where memory has room for them stand there. -/
theorem holdsAt_storeInMemory {s : State} {a : Nat} {bs : List Byte} (h : a + bs.length ≤ s.cfg.memSize) :
    (storeInMemory s a bs).HoldsAt a bs := by
  refine ⟨h, fun k hk => ?_⟩
  rw [storeInMemory, List.take_of_length_le (by omega)]
  exact Memory.read_writeBytes_inside bs s.mem a k hk

/-- R103: bytes at the instruction pointer that are as many as the longest instruction has are the whole window of the
fetch. -/
theorem fetchBytes_of_holdsAt {s : State} {bs : List Byte} (h : s.HoldsAt s.ip.toNat bs)
    (hlen : bs.length = maxLength) : fetchBytes s = bs := by
  have hrest : (fetchBytes s).drop bs.length = [] :=
    List.drop_of_length_le (by rw [fetchBytes_length]; omega)
  rw [fetchBytes_eq_append h hlen.le, hrest, List.append_nil]

/-- R101 to R103: a fetch in memory answers the instruction its window decodes to. -/
theorem fetch_of_decode {s : State} {i : Instr} {rest : List Byte} (hm : s.ip.toNat < s.cfg.memSize)
    (hd : decode (fetchBytes s) = .ok (i, rest)) : fetch s = .ok i := by
  rw [fetch_inMemory hm, hd]

/-- Settles O19: the four bytes of the word are the whole window of the fetch, which decodes them as the table does. -/
theorem theNextStepRunsTheLoadedWord : Obligations.TheNextStepRunsTheLoadedWord := by
  intro s nbits w i hroom hword
  obtain ⟨rest, hd⟩ := decodeTableWord_eq_some hword
  have hstands : (s.withFetchWord nbits w).HoldsAt s.ip.toNat (tableBytes nbits w) :=
    holdsAt_storeInMemory (by rwa [tableBytes_length])
  have hwindow : fetchBytes (s.withFetchWord nbits w) = tableBytes nbits w :=
    fetchBytes_of_holdsAt hstands (tableBytes_length nbits w)
  have hm : s.ip.toNat < s.cfg.memSize := by omega
  exact step_of_fetch_ok (fetch_of_decode hm (hwindow ▸ hd))

/-! ## Accesses outside memory, and a store into the instructions that follow it -/

section DataAccess

variable {s : State}

theorem exec_store_noMem {a : Reg} (b : Reg) (h : ¬ s.InRange (s.reg a)) :
    exec (.store (regByte a) (regByte b)) s = .fault (.noMem (s.reg a)) := by
  rw [exec, execStore_regs, storeWord_fault _ h, andThen_fault]

theorem exec_load_noMem (a : Reg) {b : Reg} (h : ¬ s.InRange (s.reg b)) :
    exec (.load (regByte a) (regByte b)) s = .fault (.noMem (s.reg b)) := by
  rw [exec, execLoad_regs, loadWord_fault _ h, andThen_fault]

/-- R150: a store that answers a next state was in range and has done what a store does. -/
theorem exec_store_eq_next {a b : Reg} {t : State}
    (h : exec (.store (regByte a) (regByte b)) s = .next t) :
    s.InRange (s.reg a) ∧ Stored (s.reg a).toNat (s.reg b) 3 s t := by
  rw [exec, execStore_regs] at h
  obtain ⟨u, hstore, hfinish⟩ := andThen_eq_next h
  obtain ⟨hr, rfl⟩ := storeWord_eq_next hstore
  obtain ⟨hadvance, -⟩ := finish_eq_next hfinish
  obtain ⟨t', ht', hstored⟩ := finish_stored (s := s) (s.reg a).toNat (s.reg b) hadvance
  obtain rfl : t' = t := Host.Outcome.next.inj (ht'.symm.trans hfinish)
  exact ⟨hr, hstored⟩

/-- R210, C4: with a legal capacity a halt at the instruction pointer completes. -/
theorem step_halt_onlyAdvanced (hcfg : s.cfg.wf) (h : s.HoldsAt s.ip.toNat (encode .halt)) :
    ∃ t, step s = .next t ∧ OnlyAdvanced 1 .halt s t := by
  rw [step_of_holdsAt h, exec, execHalt]
  exact finish_onlyAdvanced .halt (canAdvance_of_holdsAt hcfg h)

/-- R65: a halt is its opcode byte alone. -/
theorem holdsAt_encode_halt {a : Nat} (hm : a < s.cfg.memSize) (hb : s.byte a = 0x07#8) :
    s.HoldsAt a (encode .halt) := by
  refine ⟨hm, fun k hk => ?_⟩
  obtain rfl : k = 0 := Nat.lt_one_iff.mp hk
  exact hb

end DataAccess

/-- Settles O29: an access that ends past memory is not in range. -/
theorem accessOutsideMemoryFails : Obligations.AccessOutsideMemoryFails := by
  intro s a b
  exact ⟨fun h => exec_store_noMem b fun hr => by omega, fun h => exec_load_noMem a fun hr => by omega⟩

/-- Settles O46: the store left the opcode of halt at its own address, which is where the instruction pointer has gone,
inside memory. -/
theorem storeIsSeenByTheNextFetch : Obligations.StoreIsSeenByTheNextFetch := by
  intro s t a b hcfg hholds haddr hvalue hstep
  rw [step_of_holdsAt hholds] at hstep
  obtain ⟨⟨hin, -⟩, hbytes, -, hip, -, ⟨htcfg, -⟩, -⟩ := exec_store_eq_next hstep
  have hbelow : s.ip.toNat + 3 < 2 ^ 32 := holdsAt_end_lt hcfg hholds
  have hat : t.ip.toNat = (s.reg a).toNat := by
    rw [hip, BitVec.toNat_add, BitVec.toNat_ofNat]
    omega
  have hopcode : t.byte (s.reg a).toNat = 0x07#8 := by
    rw [← Nat.add_zero (s.reg a).toNat, hbytes 0 (by decide)]
    apply BitVec.eq_of_toNat_eq
    simpa using hvalue
  refine step_halt_onlyAdvanced (htcfg ▸ hcfg) ?_
  rw [hat]
  exact holdsAt_encode_halt (htcfg ▸ hin) hopcode

end Sys2Proof.Machine

/-! ## Decoding and encoding are inverse, and the opcode byte decides what decodes -/

namespace Sys2Proof

/-- Settles O7: every format's operands come back as they stand, the immediate from its two bytes. -/
theorem decodeUndoesEncode : Obligations.DecodeUndoesEncode :=
  decode_encode_append

/-- R60 to R62: what decodes begins with a legal opcode, takes the bytes its length says, and they are the encoding of
what it decodes to. -/
theorem decode_cons_eq_ok {op : Byte} {bs rest : List Byte} {i : Instr} (h : decode (op :: bs) = .ok (i, rest)) :
    ∃ operands, bs = operands ++ rest ∧ encode i = op :: operands ∧
      opcodeLength op = some (operands.length + 1) := by
  cases hop : opcodeLength op with
  | none =>
    rw [decode_of_illegal hop] at h
    exact nomatch h
  | some n =>
    obtain ⟨j, operands, tail, rfl, rfl, hj, hd⟩ | ⟨-, hd⟩ := decode_of_legal hop bs <;> rw [hd] at h
    · cases h
      exact ⟨operands, rfl, hj, rfl⟩
    · exact nomatch h

/-- Settles O8: the bytes taken are the encoding, and what is left follows them. -/
theorem encodeUndoesDecode : Obligations.EncodeUndoesDecode := by
  intro bs i rest h
  cases bs with
  | nil => exact nomatch h
  | cons op bs =>
    obtain ⟨operands, rfl, hi, -⟩ := decode_cons_eq_ok h
    rw [hi, List.cons_append]

/-- R66: an opcode byte is refused exactly when the format table gives it no length. -/
theorem decode_eq_wrongInstruction_iff {op : Byte} {bs : List Byte} :
    decode (op :: bs) = .error (.wrongInstruction op) ↔ opcodeLength op = none := by
  refine ⟨fun h => ?_, fun h => decode_of_illegal h bs⟩
  cases hop : opcodeLength op with
  | none => rfl
  | some n =>
    obtain ⟨_, _, _, -, -, -, hd⟩ | ⟨-, hd⟩ := decode_of_legal hop bs <;> rw [hd] at h <;> exact nomatch h

/-- R60: no instruction is longer than the longest. -/
theorem opcodeLength_le_maxLength {op : Byte} {n : Nat} (h : opcodeLength op = some n) : n ≤ maxLength := by
  obtain ⟨rfl, -⟩ | ⟨rfl, -⟩ | ⟨rfl, -⟩ | ⟨rfl, -⟩ := opcodeLength_eq_some h <;> decide

/-- R63, R66: a legal opcode decodes once the bytes of the longest instruction are there, whatever they are. -/
theorem exists_decode_of_legal {op : Byte} {n : Nat} {bs : List Byte} (h : opcodeLength op = some n)
    (hbs : maxLength ≤ bs.length + 1) : ∃ i rest, decode (op :: bs) = .ok (i, rest) := by
  obtain ⟨i, _, rest, -, -, -, hd⟩ | ⟨hshort, -⟩ := decode_of_legal h bs
  · exact ⟨i, rest, hd⟩
  · exact absurd (opcodeLength_le_maxLength h) (by omega)

/-- Settles O9: the bytes without a length are 0 and those from 9 on, and no instruction needs more than three bytes
after its opcode. -/
theorem exactlyTheIllegalOpcodesAreRefused : Obligations.ExactlyTheIllegalOpcodesAreRefused := by
  intro op rest
  refine ⟨decode_eq_wrongInstruction_iff.trans opcodeLength_eq_none, fun hlo hhi hrest => ?_⟩
  have hlegal : opcodeLength op ≠ none := fun hnone => by
    have := opcodeLength_eq_none.mp hnone
    omega
  obtain ⟨n, hn⟩ := Option.ne_none_iff_exists'.mp hlegal
  exact exists_decode_of_legal hn (Nat.succ_le_succ hrest)

/-- R61: the length column of the format table, as a function of the opcode byte. -/
theorem length_of_opcodeLength {op : Byte} {n : Nat} (h : opcodeLength op = some n) :
    n = if op.toNat = 7 then 1 else if op.toNat = 6 ∨ op.toNat = 8 then 2
      else if op.toNat = 2 ∨ op.toNat = 3 then 3 else 4 := by
  obtain ⟨rfl, hop⟩ | ⟨rfl, hop⟩ | ⟨rfl, hop⟩ | ⟨rfl, rfl⟩ := opcodeLength_eq_some h
  · fin_cases hop <;> rfl
  · fin_cases hop <;> rfl
  · fin_cases hop <;> rfl
  · rfl

/-- Settles O10: the bytes taken are as many as the opcode's length says. -/
theorem theOpcodeByteFixesTheLength : Obligations.TheOpcodeByteFixesTheLength := by
  intro op bs rest i h
  obtain ⟨operands, rfl, -, hlen⟩ := decode_cons_eq_ok h
  rw [← length_of_opcodeLength hlen, List.length_cons, List.length_append]
  omega

/-- Settles O11: the immediate is the number `hi * 256 + lo`, and its sign bit is that of `hi`. -/
theorem theImmediateIsLittleEndianAndSignExtended : Obligations.TheImmediateIsLittleEndianAndSignExtended := by
  intro a lo hi rest
  refine ⟨concat16 hi lo, rfl, ?_⟩
  have hlo := lo.isLt
  rw [sext32_toNat, concat16_toNat]
  by_cases hsign : hi.toNat < 0x80
  · rw [if_pos hsign, if_pos (by omega)]
  · rw [if_neg hsign, if_neg (by omega)]
    omega

/-- Settles O12: each word is the encoding of its instruction. -/
theorem spelledWordsDecode : Obligations.SpelledWordsDecode :=
  ⟨decode_encode_append (.moveIf 1 2 3) [], decode_encode_append (.store 1 2) [],
    decode_encode_append (.load 1 2) [], decode_encode_append (.loadImm 1 0x1234) [],
    decode_encode_append (.sub 3 1 2) [], decode_encode_append (.out 1) [], decode_encode_append .halt [],
    decode_encode_append (.outNumber 1) []⟩

end Sys2Proof

/-! ## The jump and no-operation idioms -/

namespace Sys2Proof.Machine

section Idioms

variable {s t : State}

theorem exec_loadImm_wrote {a : Reg} {imm : BitVec 16} (h : s.CanAdvance (s.ipAfter a (sext32 imm)) 4) :
    ∃ t, exec (.loadImm (regByte a) imm) s = .next t ∧ Wrote a (sext32 imm) 4 s t := by
  rw [exec, execLoadImm_regs]
  exact finish_wrote h

/-- R8: an immediate below `2^15` is its own sign extension. -/
theorem sext32_ofNat_toNat {n : Nat} (h : n < 2 ^ 15) : (sext32 (BitVec.ofNat 16 n)).toNat = n := by
  have hn : (BitVec.ofNat 16 n).toNat = n := by
    rw [BitVec.toNat_ofNat]
    omega
  rw [sext32_toNat, hn, if_pos h]

/-- R142: a register written to itself leaves the instruction pointer as it is, `x[0]` too. -/
theorem State.ipAfter_reg_self (s : State) (d : Reg) : s.ipAfter d (s.reg d) = s.ip := by
  rw [State.ipAfter]
  split
  · next hd => rw [hd, State.reg_zero]
  · rfl

/-- R69: writing to a register what it holds is nothing but the IP advance. -/
theorem Wrote.onlyAdvanced {d : Reg} {len : Nat} (h : Wrote d (s.reg d) len s t) : OnlyAdvanced len .cont s t := by
  obtain ⟨hip, hd, hregs, hbytes, hsurroundings, hsignal⟩ := h
  rw [State.ipAfter_reg_self] at hip
  refine ⟨hip, fun r hr => ?_, hbytes, hsurroundings, hsignal⟩
  have h0 : r ≠ 0 := by simpa using hr
  by_cases hrd : r = d
  · subst hrd
    exact hd h0
  · exact hregs r (by simp [h0, hrd])

/-- R69, R141: `load-imm r0` of a number below `2^15` jumps to the address four past it. -/
theorem exec_loadImm_jump (s : State) {n : Nat} (hn : n < 2 ^ 15) :
    ∃ t, exec (.loadImm (regByte 0) (BitVec.ofNat 16 n)) s = .next t ∧ t.ip.toNat = n + 4 ∧
      SameRegsBut [0] s t ∧ SameBytes s t := by
  have himm := sext32_ofNat_toNat hn
  have hadvance : s.CanAdvance (s.ipAfter 0 (sext32 (BitVec.ofNat 16 n))) 4 := .inl <| by
    rw [State.ipAfter, if_pos rfl]
    omega
  obtain ⟨t, ht, hip, -, hregs, hbytes, -⟩ := exec_loadImm_wrote hadvance
  refine ⟨t, ht, ?_, fun r hr => hregs r (by simpa using hr), hbytes⟩
  rw [hip, State.ipAfter, if_pos rfl, BitVec.toNat_add, himm, BitVec.toNat_ofNat]
  omega

/-- R69: `move-if rK, rK, rC` moves a register to itself or moves nothing. -/
theorem exec_moveIf_self (k c : Reg) (h : s.CanAdvance s.ip 4) :
    ∃ t, exec (.moveIf (regByte k) (regByte k) (regByte c)) s = .next t ∧ OnlyAdvanced 4 .cont s t := by
  by_cases hc : s.reg c = 0#32
  · exact exec_moveIf_onlyAdvanced k k hc h
  · obtain ⟨t, ht, hwrote⟩ := exec_moveIf_wrote (a := k) (b := k) hc (by rwa [State.ipAfter_reg_self])
    exact ⟨t, ht, hwrote.onlyAdvanced⟩

end Idioms

/-- Settles O48: the immediate `target - 4` is not negative, and a register moved to itself does not change. -/
theorem jumpAndNoOperationIdioms : Obligations.JumpAndNoOperationIdioms := by
  refine ⟨fun s target hlo hhi => ?_, fun s k c h => exec_moveIf_self k c h⟩
  obtain ⟨t, ht, hip, hregs, hbytes⟩ := exec_loadImm_jump s (n := target - 4) (by omega)
  exact ⟨t, ht, by omega, hregs, hbytes⟩

end Sys2Proof.Machine

/-! ## Fetching -/

namespace Sys2Proof.Machine

/-- R103: an instruction that begins in memory and ends past it is fetched as the abort at the first missing address. -/
theorem fetch_of_straddling {s : State} {n : Nat} (hm : s.ip.toNat < s.cfg.memSize)
    (hn : opcodeLength (s.byte s.ip.toNat) = some n) (hend : s.cfg.memSize < s.ip.toNat + n) :
    fetch s = .error (.operandPastEnd s.cfg.memSize) := by
  obtain ⟨tail, htail, hlen, -⟩ := fetchBytes_cons hm
  have hmax := opcodeLength_le_maxLength hn
  have hroom : s.ip.toNat + (tail.length + 1) = s.cfg.memSize := by omega
  rw [fetch_inMemory hm, htail]
  obtain ⟨_, operands, rest, rfl, hoperands, -, -⟩ | ⟨-, hd⟩ := decode_of_legal hn tail
  · rw [List.length_append] at hroom
    omega
  · rw [hd, ← hroom]
    rfl

/-- R66, R102: an illegal opcode byte in memory is fetched as the error that carries it. -/
theorem fetch_of_illegal {s : State} (hm : s.ip.toNat < s.cfg.memSize)
    (hn : opcodeLength (s.byte s.ip.toNat) = none) :
    fetch s = .error (.wrongInstruction (s.byte s.ip.toNat)) := by
  obtain ⟨tail, htail, -⟩ := fetchBytes_cons hm
  rw [fetch_inMemory hm, htail, decode_of_illegal hn]
  rfl

/-- Settles O13: what the window decodes to is what is fetched. -/
theorem stepRunsTheDecodedInstruction : Obligations.StepRunsTheDecodedInstruction :=
  fun _ _ _ hm hd => step_of_fetch_ok (fetch_of_decode hm hd)

/-- Settles O14: the window of the fetch begins with the instruction's bytes. -/
theorem stepRunsTheInstructionInMemory : Obligations.StepRunsTheInstructionInMemory :=
  fun _ _ h => step_of_holdsAt h

/-- Settles O15: at or past the capacity there is no window; below it, its first byte is the one at `x[0]`. -/
theorem fetchChecksTheInstructionPointer : Obligations.FetchChecksTheInstructionPointer := by
  refine fun s => ⟨fun h => step_of_fetch_error (fetch_noMem h), fun h => ?_⟩
  obtain ⟨tail, htail, -⟩ := fetchBytes_cons h
  rw [htail, List.head?_cons]

/-- Settles O17: the window ends at the end of memory, before the instruction does. -/
theorem straddlingInstructionAborts : Obligations.StraddlingInstructionAborts :=
  fun _ _ hm hn hend => step_of_fetch_error (fetch_of_straddling hm hn hend)

/-! ## Register validation, the halt signal and the overflow of the IP advance -/

theorem wellFormed_of_effectOf {s u : State} {i : Instr} {len : Nat} {sig : Signal}
    (h : EffectOf s i len sig u) : i.WellFormed := by
  cases h <;> simp [Instr.WellFormed, Instr.regOps, regByte_lt]

/-- R104: an instruction with a register operand of 16 or more stops with the largest one, in every state. -/
theorem exec_of_not_wellFormed {i : Instr} (h : ¬ i.WellFormed) (s : State) :
    exec i s = .fault (.noReg (maxOffending i.regOps)) := by
  obtain ⟨_, _, _, hu, -⟩ | ⟨f, hf, ⟨-, rfl⟩ | ⟨hw, -⟩⟩ := exec_cases i s
  · exact absurd (wellFormed_of_effectOf hu) h
  · exact hf
  · exact absurd hw h

/-- R104: an instruction whose register operands all exist does not raise `NoReg`. -/
theorem exec_ne_noReg {i : Instr} (h : i.WellFormed) (s : State) (x : Nat) : exec i s ≠ .fault (.noReg x) := by
  intro hx
  obtain (⟨hbad, -⟩ | ⟨-, ⟨_, hf⟩ | ⟨_, hf⟩ | hf⟩) | ⟨_, _, _, -, hf, -⟩ := exec_eq_fault hx
  · exact hbad h
  all_goals exact nomatch hf

/-- Settles O18: an operand of 16 or more makes the instruction ill-formed, and the largest one is its payload. -/
theorem registerOperandsAreValidatedFirst : Obligations.RegisterOperandsAreValidatedFirst := by
  refine fun i s => ⟨fun k hk h16 hmax => ?_, fun h x => exec_ne_noReg h s x⟩
  have hill : ¬ i.WellFormed := fun hw => absurd (hw k hk) (Nat.not_lt.mpr h16)
  rw [exec_of_not_wellFormed hill, maxOffending_eq hk h16 hmax]

/-- Settles O30: each effect is a register write, and the end of the step overflows from what it left in `x[0]`. -/
theorem ipAdvanceOverflowAborts : Obligations.IpAdvanceOverflowAborts := by
  intro s a b c imm ha
  refine ⟨fun hc h => ?_, fun hr h => ?_, fun h => ?_, fun h => ?_⟩ <;> rw [exec]
  · rw [execMoveIf_regs, if_neg hc, finish_wrote_overflow ha h]
  · rw [execLoad_regs, loadWord_next a ⟨by omega, hr⟩, andThen_next, finish_wrote_overflow ha h]
  · rw [execLoadImm_regs, finish_wrote_overflow ha h]
  · rw [execSub_regs, finish_wrote_overflow ha h]

/-- R107: the instruction that signals halt is the one whose encoding begins with opcode 7. -/
theorem EffectOf.signal_eq_halt_iff {s u : State} {i : Instr} {len : Nat} {sig : Signal}
    (h : EffectOf s i len sig u) : sig = .halt ↔ (encode i).head? = some 0x07#8 := by
  cases h <;> simp [encode]

/-- R103: an instruction that stands in memory begins with its opcode byte. -/
theorem head?_encode_of_holdsAt {s : State} {i : Instr} {a : Nat} (h : s.HoldsAt a (encode i)) :
    (encode i).head? = some (s.byte a) := by
  obtain ⟨op, operands, he, -⟩ := encode_eq_cons i
  rw [(holdsAt_encode h he).1, he, List.head?_cons]

/-- Settles O40: the signal of a step is its instruction's, and only halt has opcode 7. -/
theorem onlyHaltSignalsHalt : Obligations.OnlyHaltSignalsHalt := by
  intro s t hstep
  obtain ⟨i, len, sig, u, hh, hu, hf⟩ := step_effect hstep
  obtain ⟨-, -, -, -, -, -, -, rfl⟩ := finish_eq_next hf
  rw [hu.signal_eq_halt_iff, head?_encode_of_holdsAt hh, Option.some_inj]

/-- R109: a fault of a step is one of the fetch, or of the instruction that stands at the instruction pointer. -/
theorem step_eq_fault {s : State} {f : Fault} (h : step s = .fault f) :
    fetch s = .error f ∨ ∃ i, s.HoldsAt s.ip.toNat (encode i) ∧ exec i s = .fault f := by
  cases hfetch : fetch s with
  | ok i => exact .inr ⟨i, fetch_eq_ok hfetch, by rwa [step_of_fetch_ok hfetch] at h⟩
  | error g =>
    rw [step_of_fetch_error hfetch] at h
    exact .inl (congrArg _ (Host.Outcome.fault.inj h))

/-- R106: an instruction does not overflow before it has had its effect. -/
theorem not_stopOf_ipOverflow {i : Instr} {v : Word} : ¬ StopOf i (.ipOverflow v) := by
  rintro (⟨-, hf⟩ | ⟨-, ⟨_, hf⟩ | ⟨_, hf⟩ | hf⟩) <;> exact nomatch hf

/-- R106: the overflow of an IP advance comes after the effect of the instruction at the instruction pointer. -/
theorem step_eq_ipOverflow {s : State} {v : Word} (h : step s = .fault (.ipOverflow v)) :
    ∃ i len sig u, s.HoldsAt s.ip.toNat (encode i) ∧ EffectOf s i len sig u ∧ 2 ^ 32 ≤ u.ip.toNat + len := by
  obtain hfetch | ⟨i, hh, hx⟩ := step_eq_fault h
  · obtain hf | hf | ⟨_, hf⟩ := fetch_eq_error hfetch <;> exact nomatch hf
  · obtain hstop | ⟨len, sig, u, hu, -, hover⟩ := exec_eq_fault hx
    · exact absurd hstop not_stopOf_ipOverflow
    · exact ⟨i, len, sig, u, hh, hu, hover⟩

/-- Settles O42: an effect that leaves `x[0]` alone advances to the end of an instruction in memory, below `2^32`. -/
theorem overflowOnlyAfterWritingTheInstructionPointer :
    Obligations.OverflowOnlyAfterWritingTheInstructionPointer := by
  intro s v hcfg hstep
  obtain ⟨i, len, sig, u, hh, hu, hover⟩ := step_eq_ipOverflow hstep
  refine (hu.ip_eq_or_writesIp hh).resolve_left fun hip => ?_
  have hend := holdsAt_end_lt hcfg hh
  rw [← hu.len_eq, ← hip] at hend
  omega

/-! ## Runs -/

/-- R110: a run that ends in the step from `s` comes to `r`. -/
def EndsAs (s : State) (r : RunResult) : Prop :=
  match step s with
  | .next t => t.signal = .halt ∧ r = .success t
  | .fault f => r = endRun f s
  | .refused q => r = .unmodelled q

/-- R110: what one more unit of fuel lets a run come to: the end in its first step, or what the rest comes to after a step
that continues. -/
theorem run_succ_eq_iff {fuel : Nat} {s : State} {r : RunResult} :
    run (fuel + 1) s = r ↔ EndsAs s r ∨ ∃ t, step s = .next t ∧ t.signal = .cont ∧ run fuel t = r := by
  cases hstep : step s with
  | next t =>
    cases hs : t.signal with
    | halt => simp [run_of_halt fuel hstep hs, EndsAs, hstep, hs, eq_comm]
    | cont => simp [run_of_cont fuel hstep hs, EndsAs, hstep, hs]
  | fault f => simp [run_of_fault fuel hstep, EndsAs, hstep, eq_comm]
  | refused q => simp [run_of_refused fuel hstep, EndsAs, hstep, eq_comm]

/-- R110, R111: a run comes to any result but that the fuel is used up exactly when some number of steps below the fuel
continue and the run ends so in the next. -/
theorem run_eq_iff {r : RunResult} (hr : ∀ t, r ≠ .running t) (fuel : Nat) (s : State) :
    run fuel s = r ↔ ∃ k u, k < fuel ∧ Continues k s u ∧ EndsAs u r := by
  induction fuel generalizing s with
  | zero => exact ⟨fun h => absurd h.symm (hr s), fun ⟨_, _, hk, _⟩ => absurd hk (Nat.not_lt_zero _)⟩
  | succ fuel ih =>
    rw [run_succ_eq_iff]
    constructor
    · rintro (he | ⟨t, ht, hs, hrun⟩)
      · exact ⟨0, s, Nat.succ_pos _, .none s, he⟩
      · obtain ⟨k, u, hk, hc, he⟩ := (ih t).mp hrun
        exact ⟨k + 1, u, Nat.succ_lt_succ hk, .more ht hs hc, he⟩
    · rintro ⟨k, u, hk, hc, he⟩
      cases hc with
      | none => exact .inl he
      | more ht hs hc => exact .inr ⟨_, ht, hs, (ih _).mpr ⟨_, u, Nat.lt_of_succ_lt_succ hk, hc, he⟩⟩

theorem failure_eq_endRun {f g : Fault} {s t : State} :
    .failure g t = endRun f s ↔ f = g ∧ s = t ∧ ∃ ordinal, f.kind = .error ordinal := by
  rw [eq_comm, endRun]
  cases f.kind <;> simp

theorem aborted_eq_endRun {f g : Fault} {s : State} {sent : List Byte} :
    .aborted g sent = endRun f s ↔ f = g ∧ f.kind = .abort ∧ s.output = sent := by
  rw [eq_comm, endRun]
  cases f.kind <;> simp

theorem success_ne_endRun (f : Fault) (s t : State) : .success t ≠ endRun f s := by
  rw [endRun]
  cases f.kind <;> simp

theorem endsAs_success {s t : State} : EndsAs s (.success t) ↔ step s = .next t ∧ t.signal = .halt := by
  rw [EndsAs]
  cases step s with
  | next u =>
    simp only [RunResult.success.injEq, Host.Outcome.next.injEq]
    grind
  | fault f => simp [success_ne_endRun]
  | refused q => simp

/-- R110, R108: a failure is that of the step's fault, an error, and keeps the state. -/
theorem endsAs_failure {s t : State} {f : Fault} :
    EndsAs s (.failure f t) ↔ s = t ∧ step s = .fault f ∧ ∃ ordinal, f.kind = .error ordinal := by
  rw [EndsAs]
  cases step s with
  | fault g =>
    simp only [failure_eq_endRun, Host.Outcome.fault.injEq]
    grind
  | next u => simp
  | refused q => simp

/-- R307: an abort is that of the step's fault, and shows what the sink had accepted before. -/
theorem endsAs_aborted {s : State} {f : Fault} {sent : List Byte} :
    EndsAs s (.aborted f sent) ↔ step s = .fault f ∧ f.kind = .abort ∧ sent = s.output := by
  rw [EndsAs]
  cases step s with
  | fault g =>
    simp only [aborted_eq_endRun, Host.Outcome.fault.injEq]
    grind
  | next u => simp
  | refused q => simp

/-- Settles O50: a run is characterised once for every result, and each of the three comes from one outcome of the step it
ends in. -/
theorem runEndsAtTheFirstHaltOrError : Obligations.RunEndsAtTheFirstHaltOrError := by
  refine fun fuel s => ⟨fun t => ?_, fun f t => ?_, fun f sent => ?_⟩ <;>
    rw [run_eq_iff (by simp)]
  · simp only [endsAs_success]
  · simp only [endsAs_failure]
    constructor
    · rintro ⟨k, _, hk, hc, rfl, hend⟩
      exact ⟨k, hk, hc, hend⟩
    · rintro ⟨k, hk, hc, hend⟩
      exact ⟨k, t, hk, hc, rfl, hend⟩
  · simp only [endsAs_aborted]

/-! ## The host's operations -/

/-- Settles O52: the views list the registers and the bytes in order. -/
theorem viewsShowRegistersAndMemory : Obligations.ViewsShowRegistersAndMemory := by
  intro s
  refine ⟨Vector.length_toList, fun r => ?_, ?_, fun a ha => ?_⟩
  · simp [State.registerView, State.reg]
  · simp [State.memoryView]
  · simp [State.memoryView, ha]

/-- What a register write leaves alone, in the terms of the claims. -/
theorem setReg_frame (s : State) (r : Reg) (v : Word) :
    SameRegsBut [r] s (s.setReg r v) ∧ SameBytes s (s.setReg r v) ∧ SameSurroundings s (s.setReg r v) :=
  ⟨fun _ hq => State.reg_setReg_ne s v (by simpa using hq), fun _ => rfl, rfl, rfl, rfl⟩

/-- Settles O53: below 16 the index is a register, which is written. -/
theorem setRegisterValidatesTheIndex : Obligations.SetRegisterValidatesTheIndex := by
  intro s index v
  exact ⟨fun h => ⟨s.setReg ⟨index, h⟩ v, dif_pos h, State.reg_setReg_same s _ v, setReg_frame s _ v⟩,
    fun h => dif_neg (Nat.not_lt.mpr h)⟩

/-- Settles O54: a sum in `[0, 2^32)` is written to `x[0]` as it is. -/
theorem ipAdjustAddsTheOffset : Obligations.IpAdjustAddsTheOffset := by
  refine fun s offset => ⟨fun hlo hhi => ?_, fun hout => if_neg (by omega)⟩
  refine ⟨_, if_pos ⟨hlo, hhi⟩, ?_, setReg_frame s 0 _⟩
  rw [State.ip_setReg_zero, BitVec.toNat_ofInt]
  omega

end Sys2Proof.Machine

/-! ## Well-formed instructions name registers -/

namespace Sys2Proof.Machine

/-- R22, R63: an operand byte below 16 names a register. -/
theorem exists_eq_regByte {k : Byte} (h : k.toNat < 16) : ∃ r, k = regByte r :=
  ⟨_, regByte_of_regOf (regOf_of_lt h)⟩

/-- R22, R104: what holds of every instruction with registers for its operands holds of every well-formed one. -/
theorem wellFormed_casesOnRegs {motive : (i : Instr) → i.WellFormed → Prop}
    (moveIf : ∀ a b c h, motive (.moveIf (regByte a) (regByte b) (regByte c)) h)
    (store : ∀ a b h, motive (.store (regByte a) (regByte b)) h)
    (load : ∀ a b h, motive (.load (regByte a) (regByte b)) h)
    (loadImm : ∀ a imm h, motive (.loadImm (regByte a) imm) h)
    (sub : ∀ a b c h, motive (.sub (regByte a) (regByte b) (regByte c)) h)
    (out : ∀ r h, motive (.out (regByte r)) h)
    (halt : ∀ h, motive .halt h)
    (outNumber : ∀ r h, motive (.outNumber (regByte r)) h)
    (i : Instr) (hi : i.WellFormed) : motive i hi := by
  have hreg := fun k hk => exists_eq_regByte (hi k hk)
  cases i with
  | moveIf a b c | sub a b c =>
    obtain ⟨a, rfl⟩ := hreg a (by simp [Instr.regOps])
    obtain ⟨b, rfl⟩ := hreg b (by simp [Instr.regOps])
    obtain ⟨c, rfl⟩ := hreg c (by simp [Instr.regOps])
    apply_assumption
  | store a b | load a b =>
    obtain ⟨a, rfl⟩ := hreg a (by simp [Instr.regOps])
    obtain ⟨b, rfl⟩ := hreg b (by simp [Instr.regOps])
    apply_assumption
  | loadImm a | out a | outNumber a =>
    obtain ⟨a, rfl⟩ := hreg a (by simp [Instr.regOps])
    apply_assumption
  | halt => exact halt hi

end Sys2Proof.Machine

/-! ## What was sent and signalled before has no part in a step -/

namespace Sys2Proof.Machine

/-- A result with a change made to the state it answers. -/
def mapNext (f : State → State) : Result → Result
  | .next s => .next (f s)
  | .fault f => .fault f
  | .refused r => .refused r

@[simp] theorem mapNext_next (f : State → State) (s : State) : mapNext f (.next s) = .next (f s) := rfl

@[simp] theorem mapNext_fault (f : State → State) (r : Fault) : mapNext f (.fault r) = .fault r := rfl

/-- The state with `out` sent before all it has sent. -/
def State.after (out : List Byte) (s : State) : State :=
  { s with output := out ++ s.output }

/-- The state with `out` sent before all it has sent, and `sig` as the signal of the last step. -/
def State.withPast (out : List Byte) (sig : Signal) (s : State) : State :=
  { s with output := out ++ s.output, signal := sig }

/-- The state with nothing sent and no halt signalled. -/
def State.forget (s : State) : State :=
  { s with output := [], signal := .cont }

theorem State.withPast_forget (s : State) : s.forget.withPast s.output s.signal = s := by
  simp [State.withPast, State.forget]

section Past

variable (out : List Byte) (sig : Signal) (s : State)

theorem withPast_sent (later : Sink) (bytes : List Byte) :
    (s.withPast out sig).sent later bytes = (s.sent later bytes).withPast out sig := by
  simp [State.sent, State.withPast]

/-- R107: the end of a step overwrites the signal of the last one and sends nothing. -/
theorem finish_withPast (len : Nat) (t : Signal) :
    finish len t (s.withPast out sig) = mapNext (State.after out) (finish len t s) := by
  obtain ⟨h, hf⟩ | ⟨h, ha, hf⟩ := finish_cases len t s
  · rw [hf, finish_next len t (s.withPast out sig) h]
    rfl
  · rw [hf, finish_overflow len t (s.withPast out sig) h ha]
    rfl

theorem emit_withPast (bytes : List Byte) :
    emit bytes (s.withPast out sig) = mapNext (State.withPast out sig) (emit bytes s) := by
  cases ha : s.sink.answer with
  | ok later => rw [emit_ok bytes ha, emit_ok bytes (s := s.withPast out sig) ha, withPast_sent, mapNext_next]
  | fail kept => rw [emit_fail bytes ha, emit_fail bytes (s := s.withPast out sig) ha, mapNext_fault]
  | never => rw [emit_never bytes ha, emit_never bytes (s := s.withPast out sig) ha, mapNext_fault]

theorem storeWord_withPast (addr v : Word) :
    storeWord addr v (s.withPast out sig) = mapNext (State.withPast out sig) (storeWord addr v s) := by
  by_cases h : s.InRange addr
  · rw [storeWord_next v h, storeWord_next v (s := s.withPast out sig) h]
    rfl
  · rw [storeWord_fault v h, storeWord_fault v (s := s.withPast out sig) h, mapNext_fault]

theorem loadWord_withPast (d : Reg) (addr : Word) :
    loadWord d addr (s.withPast out sig) = mapNext (State.withPast out sig) (loadWord d addr s) := by
  by_cases h : s.InRange addr
  · rw [loadWord_next d h, loadWord_next d (s := s.withPast out sig) h]
    rfl
  · rw [loadWord_fault d h, loadWord_fault d (s := s.withPast out sig) h, mapNext_fault]

theorem andThen_finish_withPast (o : Result) (len : Nat) (t : Signal) :
    andThen (mapNext (State.withPast out sig) o) (finish len t) =
      mapNext (State.after out) (andThen o (finish len t)) := by
  cases o with
  | next u => exact finish_withPast out sig u len t
  | fault _ | refused _ => rfl

/-- R31, R113: an instruction sends the same after any past, and answers what it does without it. -/
theorem exec_withPast (i : Instr) :
    exec i (s.withPast out sig) = mapNext (State.after out) (exec i s) := by
  by_cases hw : i.WellFormed
  swap
  · rw [exec_of_not_wellFormed hw, exec_of_not_wellFormed hw, mapNext_fault]
  cases i, hw using wellFormed_casesOnRegs with
  | moveIf a b c =>
    rw [exec, exec, execMoveIf_regs, execMoveIf_regs, ← finish_withPast out sig]
    exact congrArg _ (apply_ite (State.withPast out sig) (s.reg c = 0#32) s (s.setReg a (s.reg b))).symm
  | store a b =>
    rw [exec, exec, execStore_regs, execStore_regs, ← andThen_finish_withPast, ← storeWord_withPast]
    rfl
  | load a b =>
    rw [exec, exec, execLoad_regs, execLoad_regs, ← andThen_finish_withPast, ← loadWord_withPast]
    rfl
  | loadImm a imm =>
    rw [exec, exec, execLoadImm_regs, execLoadImm_regs, ← finish_withPast]
    rfl
  | sub a b c =>
    rw [exec, exec, execSub_regs, execSub_regs, ← finish_withPast]
    rfl
  | out r =>
    rw [exec, exec, execOut_regs, execOut_regs, ← andThen_finish_withPast, ← emit_withPast]
    rfl
  | halt => exact finish_withPast out sig s 1 .halt
  | outNumber r =>
    rw [exec, exec, execOutNumber_regs, execOutNumber_regs, ← andThen_finish_withPast, ← emit_withPast]
    rfl

/-- R101 to R103: what is fetched depends on registers, memory and capacity alone. -/
theorem fetch_withPast : fetch (s.withPast out sig) = fetch s := rfl

theorem step_withPast : step (s.withPast out sig) = mapNext (State.after out) (step s) := by
  rw [step, step, fetch_withPast]
  cases fetch s with
  | ok i => exact exec_withPast out sig s i
  | error f => rfl

end Past

/-- A step is the one of the state without its past, what it sends coming after what had been sent. -/
theorem step_eq_mapNext_forget (s : State) : step s = mapNext (State.after s.output) (step s.forget) := by
  rw [← step_withPast s.output s.signal, State.withPast_forget]

/-- States that agree but for what they have sent and signalled are one state without their past. -/
theorem forget_eq_forget {s s' : State} (hcfg : s'.cfg = s.cfg) (hregs : s'.regs = s.regs)
    (hmem : s'.mem = s.mem) (hsink : s'.sink = s.sink) : s'.forget = s.forget := by
  simp only [State.forget, hcfg, hregs, hmem, hsink]

/-- Settles O44: both steps are the one of the state without its past. -/
theorem stepDependsOnStateAndAnswersAlone : Obligations.StepDependsOnStateAndAnswersAlone := by
  intro s s' hcfg hregs hmem hsink
  rw [step_eq_mapNext_forget s, step_eq_mapNext_forget s', forget_eq_forget hcfg hregs hmem hsink]
  cases step s.forget with
  | next u =>
    refine ⟨fun f hf => (nomatch hf), fun t ht => ?_⟩
    obtain rfl : u.after s.output = t := Host.Outcome.next.inj ht
    exact ⟨_, u.output, rfl, rfl, rfl, rfl, rfl, rfl, rfl, rfl⟩
  | fault f => exact ⟨fun _ hf => hf, fun _ ht => nomatch ht⟩
  | refused r => exact ⟨fun _ hf => (nomatch hf), fun _ ht => nomatch ht⟩

end Sys2Proof.Machine

/-! ## The cycle on numbers -/

namespace Sys2Proof.Machine.Cycle

/-- R9: `x[r] <- v` for a number that is the value of a word. -/
theorem setX_toNat (s : State) (r : Reg) (v : Word) : setX s r.val v.toNat = s.setReg r v := by
  rw [setX_reg, BitVec.ofNat_toNat, BitVec.setWidth_eq]

/-- R8: `sext_32` on numbers is the model's. -/
theorem sext_toNat (imm : BitVec 16) : sext imm.toNat = (sext32 imm).toNat := by
  rw [sext, sext32_toNat]

/-- R8: `signed32` on numbers is the model's. -/
theorem signed_toNat (v : Word) : signed v.toNat = signed32 v := by
  rw [signed, signed32_eq]

/-- R42: the sum of the four bytes on numbers is the word read. -/
theorem mem_sum_eq_readWord (s : State) (a : Nat) :
    mem s a + 256 * mem s (a + 1) + 65536 * mem s (a + 2) + 16777216 * mem s (a + 3) =
      (s.mem.readWord a).toNat :=
  (readWord_toNat s a).symm

/-- R43: byte `i` of a word as a number. -/
theorem ofNat_div_eq_wordByte (v : Word) (i : Nat) : BitVec.ofNat 8 (v.toNat / 256 ^ i % 256) = wordByte v i := by
  rw [← wordByte_toNat, BitVec.ofNat_toNat, BitVec.setWidth_eq]

/-- R43: the four writes on numbers are the write of the word. -/
theorem setMem_four (s : State) (a : Nat) (v : Word) :
    setMem (setMem (setMem (setMem s a (v.toNat % 256)) (a + 1) (v.toNat / 256 % 256)) (a + 2)
      (v.toNat / 65536 % 256)) (a + 3) (v.toNat / 16777216 % 256) = s.setMem (s.mem.writeWord a v) := by
  have h0 := ofNat_div_eq_wordByte v 0
  have h1 := ofNat_div_eq_wordByte v 1
  have h2 := ofNat_div_eq_wordByte v 2
  have h3 := ofNat_div_eq_wordByte v 3
  norm_num at h0 h1 h2 h3
  simp only [setMem, h0, h1, h2, h3]
  rfl

/-- R46: the check of an access on numbers is the model's. -/
theorem outOfRange_iff (s : State) (addr : Word) :
    (s.cfg.memSize ≤ addr.toNat ∨ s.cfg.memSize < addr.toNat + 4) ↔ ¬ s.InRange addr := by
  omega

/-- R190: the bytes of a character on numbers are the model's. -/
theorem emit_char (s : State) (v : Word) :
    (if s.cfg.outByteEncoding = .raw ∨ v.toNat % 256 < 0x80 then emit [BitVec.ofNat 8 (v.toNat % 256)] s
      else emit [BitVec.ofNat 8 (0xC0 + v.toNat % 256 / 64), BitVec.ofNat 8 (0x80 + v.toNat % 256 % 64)] s) =
      emit (charBytes s.cfg.outByteEncoding (low8 v)) s := by
  rw [← low8_toNat]
  split
  · next h => rw [charBytes_one h, BitVec.ofNat_toNat, BitVec.setWidth_eq]
  · next h =>
    obtain ⟨hraw, hlarge⟩ := not_or.mp h
    have henc : s.cfg.outByteEncoding = .utf8 := by
      cases he : s.cfg.outByteEncoding with
      | raw => exact absurd he hraw
      | utf8 => rfl
    rw [henc, charBytes_two (Nat.not_lt.mp hlarge)]

/-! ## The effect of each instruction on numbers -/

section Effect

variable (s : State)

theorem effect_moveIf (a b c : Reg) :
    effect 1 a.val b.val c.val s = .next (if s.reg c = 0#32 then s else s.setReg a (s.reg b)) := by
  have hc : x s c.val ≠ 0 ↔ ¬ s.reg c = 0#32 := by
    rw [x_reg, Ne, BitVec.toNat_eq]
    rfl
  simp only [effect, hc, x_reg s b, setX_toNat, ite_not, if_true]

theorem effect_store (a b : Reg) (c : Nat) :
    effect 2 a.val b.val c s = storeWord (s.reg a) (s.reg b) s := by
  by_cases h : s.InRange (s.reg a)
  · rw [storeWord_next _ h, ← setMem_four]
    simp [effect, x_reg, outOfRange_iff, h]
  · rw [storeWord_fault _ h]
    simp [effect, x_reg, outOfRange_iff, h]

theorem effect_load (a b : Reg) (c : Nat) :
    effect 3 a.val b.val c s = loadWord a (s.reg b) s := by
  by_cases h : s.InRange (s.reg b)
  · rw [loadWord_next _ h, ← setX_toNat, ← mem_sum_eq_readWord]
    simp [effect, x_reg, outOfRange_iff, h]
  · rw [loadWord_fault _ h]
    simp [effect, x_reg, outOfRange_iff, h]

theorem effect_loadImm (a : Reg) (imm : BitVec 16) :
    effect 4 a.val (immLo imm).toNat (immHi imm).toNat s = .next (s.setReg a (sext32 imm)) := by
  have himm : (immHi imm).toNat * 256 + (immLo imm).toNat = imm.toNat := by
    rw [← concat16_toNat, concat16_immHi_immLo]
  simp [effect, himm, sext_toNat, setX_toNat]

theorem effect_sub (a b c : Reg) :
    effect 5 a.val b.val c.val s = .next (s.setReg a (s.reg b - s.reg c)) := by
  have hd : (x s b.val + 2 ^ 32 - x s c.val) % 2 ^ 32 = (s.reg b - s.reg c).toNat := by
    rw [x_reg, x_reg]
    bv_omega
  rw [← setX_toNat, ← hd]
  rfl

theorem effect_out (r : Reg) (b c : Nat) :
    effect 6 r.val b c s = emit (charBytes s.cfg.outByteEncoding (low8 (s.reg r))) s := by
  rw [← emit_char, ← x_reg]
  rfl

theorem effect_halt (a b c : Nat) : effect 7 a b c s = .next s := rfl

theorem effect_outNumber (r : Reg) (b c : Nat) :
    effect 8 r.val b c s = emit (dec (signed32 (s.reg r))) s := by
  rw [← signed_toNat, ← x_reg]
  rfl

end Effect

/-! ## Validation and the end of the step on numbers -/

/-- R104: operands of which one is 16 or more end the cycle with the largest. -/
theorem handle_noReg {op a b c : Nat} {ks : List Byte} (s : State) (hops : regops op a b c = ks.map BitVec.toNat)
    (hbad : ¬ ∀ k ∈ ks, k.toNat < 16) : handle op a b c s = .fault (.noReg (maxOffending ks)) := by
  have hne : (ks.map BitVec.toNat).filter (fun k => 16 ≤ k) ≠ [] := by
    simpa [List.filter_eq_nil_iff] using hbad
  rw [handle, hops, if_pos hne]
  rfl

/-- R104 to R107: operands below 16 let the effect and the end of the step run. -/
theorem handle_valid {op a b c : Nat} {ks : List Byte} (s : State) (hops : regops op a b c = ks.map BitVec.toNat)
    (hvalid : ∀ k ∈ ks, k.toNat < 16) : handle op a b c s = andThen (effect op a b c s) (endStep op) := by
  have hnil : (ks.map BitVec.toNat).filter (fun k => 16 ≤ k) = [] := by
    simpa [List.filter_eq_nil_iff] using hvalid
  rw [handle, hops, hnil, if_neg (not_not_intro rfl)]
  cases effect op a b c s <;> rfl


/-! ## The bytes of an instruction that stands in memory, as numbers -/

section HoldsAt

variable {s : State} {a : Nat} {bs : List Byte} (h : s.HoldsAt a bs)
include h

theorem mem_of_holdsAt (k : Nat) {b : Byte} (hb : bs[k]? = some b) : mem s (a + k) = b.toNat := by
  obtain ⟨hk, rfl⟩ := List.getElem?_eq_some_iff.mp hb
  exact congrArg BitVec.toNat (h.2 k hk)

theorem mem_head_of_holdsAt {b : Byte} (hb : bs[0]? = some b) : mem s a = b.toNat :=
  mem_of_holdsAt h 0 hb

/-- R63: a register operand is the number of its register. -/
theorem mem_reg_of_holdsAt (k : Nat) {r : Reg} (hb : bs[k]? = some (regByte r)) : mem s (a + k) = r.val :=
  (mem_of_holdsAt h k hb).trans (regByte_toNat r)

end HoldsAt

/-- R104: the register operands on numbers are those of the instruction that stands in memory. -/
theorem regops_of_holdsAt {s : State} {i : Instr} {a : Nat} (h : s.HoldsAt a (encode i)) :
    regops (mem s a) (mem s (a + 1)) (mem s (a + 2)) (mem s (a + 3)) = i.regOps.map BitVec.toNat := by
  cases i with
  | moveIf | sub =>
    rw [mem_head_of_holdsAt h rfl, mem_of_holdsAt h 1 rfl, mem_of_holdsAt h 2 rfl, mem_of_holdsAt h 3 rfl]
    rfl
  | store | load =>
    rw [mem_head_of_holdsAt h rfl, mem_of_holdsAt h 1 rfl, mem_of_holdsAt h 2 rfl]
    rfl
  | loadImm | out | outNumber =>
    rw [mem_head_of_holdsAt h rfl, mem_of_holdsAt h 1 rfl]
    rfl
  | halt =>
    rw [mem_head_of_holdsAt h rfl]
    rfl

/-- R106, R107: the end of a step of the cycle is the model's, as a function of the state the effect left. -/
theorem endStep_eq (op : Nat) : endStep op = finish (len op) (if op = 7 then .halt else .cont) :=
  funext fun t => endStep_eq_finish t rfl rfl

/-- R104 to R107: the cycle on the bytes of an instruction that stands in memory is the instruction. -/
theorem handle_of_holdsAt {s : State} {i : Instr} {a : Nat} (h : s.HoldsAt a (encode i)) :
    handle (mem s a) (mem s (a + 1)) (mem s (a + 2)) (mem s (a + 3)) s = exec i s := by
  have hops := regops_of_holdsAt h
  by_cases hw : i.WellFormed
  swap
  · rw [handle_noReg s hops hw, exec_of_not_wellFormed hw]
  rw [handle_valid s hops hw, endStep_eq]
  cases i, hw using wellFormed_casesOnRegs with
  | moveIf b c d =>
    have hop : mem s a = 1 := mem_head_of_holdsAt h rfl
    rw [hop, mem_reg_of_holdsAt h 1 rfl, mem_reg_of_holdsAt h 2 rfl, mem_reg_of_holdsAt h 3 rfl,
      effect_moveIf, exec, execMoveIf_regs, andThen_next]
    rfl
  | store b c =>
    have hop : mem s a = 2 := mem_head_of_holdsAt h rfl
    rw [hop, mem_reg_of_holdsAt h 1 rfl, mem_reg_of_holdsAt h 2 rfl, effect_store, exec, execStore_regs]
    rfl
  | load b c =>
    have hop : mem s a = 3 := mem_head_of_holdsAt h rfl
    rw [hop, mem_reg_of_holdsAt h 1 rfl, mem_reg_of_holdsAt h 2 rfl, effect_load, exec, execLoad_regs]
    rfl
  | loadImm b imm =>
    have hop : mem s a = 4 := mem_head_of_holdsAt h rfl
    rw [hop, mem_reg_of_holdsAt h 1 rfl, mem_of_holdsAt h 2 rfl, mem_of_holdsAt h 3 rfl, effect_loadImm,
      exec, execLoadImm_regs, andThen_next]
    rfl
  | sub b c d =>
    have hop : mem s a = 5 := mem_head_of_holdsAt h rfl
    rw [hop, mem_reg_of_holdsAt h 1 rfl, mem_reg_of_holdsAt h 2 rfl, mem_reg_of_holdsAt h 3 rfl, effect_sub,
      exec, execSub_regs, andThen_next]
    rfl
  | out r =>
    have hop : mem s a = 6 := mem_head_of_holdsAt h rfl
    rw [hop, mem_reg_of_holdsAt h 1 rfl, effect_out, exec, execOut_regs]
    rfl
  | halt =>
    have hop : mem s a = 7 := mem_head_of_holdsAt h rfl
    rw [hop, effect_halt, exec, execHalt, andThen_next]
    rfl
  | outNumber r =>
    have hop : mem s a = 8 := mem_head_of_holdsAt h rfl
    rw [hop, mem_reg_of_holdsAt h 1 rfl, effect_outNumber, exec, execOutNumber_regs]
    rfl

/-! ## The fetch on numbers -/

/-- R103: no operand byte of an instruction that ends in memory is missing. -/
theorem find?_missing_eq_none {size ip n : Nat} (h : ip + n ≤ size) :
    ((List.range' 1 (n - 1)).find? fun i => size ≤ ip + i) = none := by
  rw [List.find?_eq_none]
  intro i hi
  rw [List.mem_range'_1] at hi
  simp only [decide_eq_true_eq]
  omega

/-- R103: the first missing operand byte of an instruction that begins in memory is the one at the capacity. -/
theorem find?_missing_eq_some {size ip n : Nat} (hip : ip < size) (h : size < ip + n) :
    ((List.range' 1 (n - 1)).find? fun i => size ≤ ip + i) = some (size - ip) := by
  rw [List.find?_range'_eq_some]
  simp only [List.mem_range'_1, decide_eq_true_eq, Bool.not_eq_true', decide_eq_false_iff_not]
  exact ⟨by omega, by omega, fun j _ hj => by omega⟩

theorem step_of_outside {s : State} (h : s.cfg.memSize ≤ s.ip.toNat) : step s = .fault (.noMem s.ip) := by
  simp only [step, x_zero, if_pos h, BitVec.ofNat_toNat, BitVec.setWidth_eq]

theorem step_of_illegal {s : State} (hm : s.ip.toNat < s.cfg.memSize)
    (hn : opcodeLength (s.byte s.ip.toNat) = none) :
    step s = .fault (.wrongInstruction (s.byte s.ip.toNat)) := by
  have hop : (s.byte s.ip.toNat).toNat < 1 ∨ 8 < (s.byte s.ip.toNat).toNat := by
    have := opcodeLength_eq_none.mp hn
    omega
  simp only [step, x_zero, mem_eq_byte, if_neg (Nat.not_le.mpr hm), if_pos hop, BitVec.ofNat_toNat,
    BitVec.setWidth_eq]

/-- R61, R102: an opcode byte with a length passes the check of the cycle, which gives it the same length. -/
theorem legal_of_opcodeLength {op : Byte} {n : Nat} (h : opcodeLength op = some n) :
    ¬ (op.toNat < 1 ∨ 8 < op.toNat) ∧ len op.toNat = n := by
  refine ⟨fun hout => ?_, (length_of_opcodeLength h).symm⟩
  have hnone : opcodeLength op = none := opcodeLength_eq_none.mpr (by omega)
  exact nomatch h.symm.trans hnone

theorem step_of_straddling {s : State} {n : Nat} (hm : s.ip.toNat < s.cfg.memSize)
    (hn : opcodeLength (s.byte s.ip.toNat) = some n) (hend : s.cfg.memSize < s.ip.toNat + n) :
    step s = .fault (.operandPastEnd s.cfg.memSize) := by
  obtain ⟨hop, hlen⟩ := legal_of_opcodeLength hn
  simp only [step, x_zero, mem_eq_byte, if_neg (Nat.not_le.mpr hm), if_neg hop, hlen,
    find?_missing_eq_some hm hend, Nat.add_sub_cancel' hm.le]

theorem step_of_whole {s : State} {n : Nat} (hm : s.ip.toNat < s.cfg.memSize)
    (hn : opcodeLength (s.byte s.ip.toNat) = some n) (hend : s.ip.toNat + n ≤ s.cfg.memSize) :
    step s = handle (mem s s.ip.toNat) (mem s (s.ip.toNat + 1)) (mem s (s.ip.toNat + 2))
      (mem s (s.ip.toNat + 3)) s := by
  obtain ⟨hop, hlen⟩ := legal_of_opcodeLength hn
  simp only [step, x_zero, mem_eq_byte, if_neg (Nat.not_le.mpr hm), if_neg hop, hlen,
    find?_missing_eq_none hend]

end Sys2Proof.Machine.Cycle

namespace Sys2Proof.Machine

/-- R103: an instruction that begins in memory and ends in it stands there. -/
theorem exists_holdsAt_of_whole {s : State} {n : Nat} (hm : s.ip.toNat < s.cfg.memSize)
    (hn : opcodeLength (s.byte s.ip.toNat) = some n) (hend : s.ip.toNat + n ≤ s.cfg.memSize) :
    ∃ i, s.HoldsAt s.ip.toNat (encode i) := by
  obtain ⟨tail, htail, hlen, -⟩ := fetchBytes_cons hm
  have hmax := opcodeLength_le_maxLength hn
  obtain ⟨i, _, rest, -, -, -, hd⟩ | ⟨hshort, -⟩ := decode_of_legal hn tail
  · exact ⟨i, fetch_eq_ok (fetch_of_decode hm (htail ▸ hd))⟩
  · omega

/-- Settles O36: outside memory, at an illegal opcode and at an instruction that ends past memory both stop with the same
fault; else an instruction stands in memory, and both run it. -/
theorem stepIsTheInstructionCycle : Obligations.StepIsTheInstructionCycle := by
  intro s
  rcases Nat.lt_or_ge s.ip.toNat s.cfg.memSize with hm | hm
  swap
  · rw [step_of_fetch_error (fetch_noMem hm), Cycle.step_of_outside hm]
  cases hn : opcodeLength (s.byte s.ip.toNat) with
  | none => rw [step_of_fetch_error (fetch_of_illegal hm hn), Cycle.step_of_illegal hm hn]
  | some n =>
    rcases Nat.lt_or_ge s.cfg.memSize (s.ip.toNat + n) with hend | hend
    · rw [step_of_fetch_error (fetch_of_straddling hm hn hend), Cycle.step_of_straddling hm hn hend]
    · obtain ⟨i, hi⟩ := exists_holdsAt_of_whole hm hn hend
      rw [step_of_holdsAt hi, Cycle.step_of_whole hm hn hend, Cycle.handle_of_holdsAt hi]

end Sys2Proof.Machine

/-! ## The conditional move -/

namespace Sys2Proof.Machine

/-- Settles O20: with a non-zero condition the effect is the register write, with a zero one there is no effect, and the
end of the step advances from what it left in `x[0]`. -/
theorem moveIfMovesExactlyWhenTheConditionHolds : Obligations.MoveIfMovesExactlyWhenTheConditionHolds := by
  intro s a b c
  exact ⟨exec_moveIf_wrote, exec_moveIf_onlyAdvanced a b⟩

end Sys2Proof.Machine

/-! ## Loads and stores -/

namespace Sys2Proof.Machine

/-- R43: byte `i` of a word, as the byte of a quotient. -/
theorem ofNat_div_pow_eq_wordByte (v : Word) (i : Nat) : BitVec.ofNat 8 (v.toNat / 256 ^ i) = wordByte v i := by
  apply BitVec.eq_of_toNat_eq
  rw [wordByte_toNat, BitVec.toNat_ofNat]

/-- R42, R44: four bytes that are those of a word, the least significant first, read as that word. -/
theorem readWord_eq_of_bytes {s : State} {a : Nat} {w : Word} (h : ∀ i, i < 4 → s.byte (a + i) = wordByte w i) :
    s.mem.readWord a = w := by
  have h0 : s.mem.read a = wordByte w 0 := h 0 (by decide)
  have h1 : s.mem.read (a + 1) = wordByte w 1 := h 1 (by decide)
  have h2 : s.mem.read (a + 2) = wordByte w 2 := h 2 (by decide)
  have h3 : s.mem.read (a + 3) = wordByte w 3 := h 3 (by decide)
  rw [Memory.readWord, h0, h1, h2, h3, wordOfBytes_wordByte]

/-- R53: a stored word is read back wherever its four bytes have been left alone. -/
theorem Stored.readWord_eq {s t u : State} {a len : Nat} {w : Word} (h : Stored a w len s t)
    (hu : ∀ i, i < 4 → u.byte (a + i) = t.byte (a + i)) : u.mem.readWord a = w := by
  obtain ⟨hbytes, -⟩ := h
  refine readWord_eq_of_bytes fun i hi => ?_
  rw [hu i hi, hbytes i hi, ofNat_div_pow_eq_wordByte]

/-- R142: an effect that writes another register leaves `x[0]` alone. -/
theorem State.ipAfter_of_ne (s : State) {d : Reg} (w : Word) (h : d ≠ 0) : s.ipAfter d w = s.ip :=
  if_neg h

/-- R104, R150: a store that answers a next state has operands that name registers, and has done what a store does. -/
theorem exec_store_eq_next_bytes {s t : State} {a b : Byte} (h : exec (.store a b) s = .next t) :
    ∃ ra rb, a = regByte ra ∧ b = regByte rb ∧ Stored (s.reg ra).toNat (s.reg rb) 3 s t := by
  obtain ⟨_, _, _, heffect, -⟩ := exec_eq_next h
  cases heffect with
  | stored ra rb =>
    obtain ⟨-, hstored⟩ := exec_store_eq_next h
    exact ⟨ra, rb, rfl, rfl, hstored⟩

/-- Settles O21: what a completed store has done, its four bytes listed one by one. -/
theorem storeWritesFourLittleEndianBytes : Obligations.StoreWritesFourLittleEndianBytes := by
  intro s a b hr hadvance
  obtain ⟨t, ht, hbytes, hrest⟩ := exec_store_stored b hr hadvance
  have h0 := hbytes 0 (by decide)
  rw [Nat.add_zero, pow_zero, Nat.div_one] at h0
  exact ⟨t, ht, h0, hbytes 1 (by decide), hbytes 2 (by decide), hbytes 3 (by decide), hrest⟩

/-- Settles O22: the sum of the four bytes is the word that the load reads. -/
theorem loadReadsFourLittleEndianBytes : Obligations.LoadReadsFourLittleEndianBytes := by
  intro s a b addr v haddr hr hv hadvance
  subst haddr
  have hword : BitVec.ofNat 32 v = s.mem.readWord (s.reg b).toNat := by
    rw [hv, ← readWord_toNat, BitVec.ofNat_toNat, BitVec.setWidth_eq]
  rw [hword] at hadvance ⊢
  exact exec_load_wrote hr hadvance

/-- Settles O34: the operands of a store that answers name registers, and the frame is part of what the store has done. -/
theorem storeFrame : Obligations.StoreFrame := by
  intro s t a b hx
  obtain ⟨ra, rb, rfl, rfl, -, houtside, -, hregs, hsurroundings, -⟩ := exec_store_eq_next_bytes hx
  refine ⟨fun r hr => ?_, hregs, hsurroundings⟩
  obtain rfl : ra = r := Option.some.inj ((regOf_regByte ra).symm.trans hr)
  exact houtside

/-- Settles O45: the load is in range because the store was, and reads back the word whose bytes the store left. -/
theorem loadAfterStoreGivesTheValue : Obligations.LoadAfterStoreGivesTheValue := by
  intro s t u a b d e hstore hcfg hbytes haddr hd hadvance
  obtain ⟨⟨-, hr⟩, hstored⟩ := exec_store_eq_next hstore
  have hword : u.mem.readWord (u.reg e).toNat = s.reg b := haddr ▸ hstored.readWord_eq hbytes
  obtain ⟨-, -, -, -, ⟨htcfg, -⟩, -⟩ := hstored
  have hrange : (u.reg e).toNat + 4 ≤ u.cfg.memSize := by rwa [haddr, hcfg, htcfg]
  rw [← u.ipAfter_of_ne _ hd] at hadvance
  obtain ⟨w, hw, -, hwd, -⟩ := exec_load_wrote hrange hadvance
  exact ⟨w, hw, (hwd hd).trans hword⟩

end Sys2Proof.Machine

/-! ## Immediate arithmetic -/

namespace Sys2Proof.Machine

/-- R8: sign extension keeps the signed number that the immediate reads as. -/
theorem sext32_eq_ofInt (imm : BitVec 16) : sext32 imm = BitVec.ofInt 32 imm.toInt := rfl

/-- R8: the wrapping difference of two words is fixed by its value modulo `2^32`. -/
theorem eq_sub_of_toNat {d v w : Word} (h : d.toNat = (v.toNat + 2 ^ 32 - w.toNat) % 2 ^ 32) : d = v - w := by
  apply BitVec.eq_of_toNat_eq
  rw [h, BitVec.toNat_sub']
  have hw := w.isLt
  omega

/-- R105, R106: an end of step after a register write that answers a next state has written that register. -/
theorem wrote_of_finish_eq_next {s t : State} {d : Reg} {w : Word} {len : Nat}
    (h : finish len .cont (s.setReg d w) = .next t) : Wrote d w len s t := by
  obtain ⟨hadvance, -⟩ := finish_eq_next h
  rw [State.ip_setReg] at hadvance
  obtain ⟨t', ht', hwrote⟩ := finish_wrote hadvance
  obtain rfl : t' = t := Host.Outcome.next.inj (ht'.symm.trans h)
  exact hwrote

/-- R171: a sub that answers a next state has written the wrapped difference. -/
theorem exec_sub_eq_next {s t : State} {a b c : Reg}
    (h : exec (.sub (regByte a) (regByte b) (regByte c)) s = .next t) : Wrote a (s.reg b - s.reg c) 4 s t := by
  rw [exec, execSub_regs] at h
  exact wrote_of_finish_eq_next h

/-- Settles O23: the sign extension that a load-imm writes is the signed reading of its immediate. -/
theorem loadImmWritesTheSignedImmediate : Obligations.LoadImmWritesTheSignedImmediate := by
  intro s a imm hadvance
  rw [← sext32_eq_ofInt] at hadvance ⊢
  exact exec_loadImm_wrote hadvance

/-- Settles O24: the number `d` is the wrapping difference that a sub writes. -/
theorem subWritesTheWrappedDifference : Obligations.SubWritesTheWrappedDifference := by
  intro s a b c d hd hadvance
  obtain rfl := eq_sub_of_toNat hd
  exact exec_sub_wrote hadvance

/-- Settles O49: the first subtraction leaves `-x[y]` in `x[n]` and `x[x]` alone, and the second takes it from `x[x]`. -/
theorem twoSubtractionsAdd : Obligations.TwoSubtractionsAdd := by
  intro s t u n z x y d hn hd hx hnx hz hfirst hsecond
  obtain ⟨-, hnegated, hkept, -⟩ := exec_sub_eq_next hfirst
  obtain ⟨-, hwritten, -⟩ := exec_sub_eq_next hsecond
  have htx : t.reg x = s.reg x := hkept x (by simp [hx, hnx.symm])
  calc (u.reg d).toNat
      = (s.reg x - (0#32 - s.reg y)).toNat := by rw [hwritten hd, htx, hnegated hn, hz]
    _ = (s.reg x + s.reg y).toNat := by rw [BitVec.zero_sub, BitVec.sub_neg]
    _ = ((s.reg x).toNat + (s.reg y).toNat) % 2 ^ 32 := BitVec.toNat_add ..

end Sys2Proof.Machine

/-! ## The output instructions -/

namespace Sys2Proof.Machine

/-- Settles O25: the character is the low byte of the register, and the encoding sends it as one byte or as two. -/
theorem outSendsTheLowByteAsOneCharacter : Obligations.OutSendsTheLowByteAsOneCharacter := by
  intro s r later ch hch hanswer hadvance
  rw [← low8_toNat] at hch
  subst hch
  obtain ⟨t, ht, hsent⟩ := exec_out_sent r hanswer hadvance
  refine ⟨t, ht, fun hone => ?_, fun hutf hlarge => ?_⟩
  · rw [BitVec.ofNat_toNat, BitVec.setWidth_eq]
    rwa [charBytes_one hone] at hsent
  · rwa [hutf, charBytes_two hlarge] at hsent

/-- Settles O26: the number `n` is the signed reading whose text an out-number sends. -/
theorem outNumberSendsTheSignedText : Obligations.OutNumberSendsTheSignedText := by
  intro s r later n hn hanswer hadvance
  rw [hn, ← signed32_eq]
  exact exec_outNumber_sent r hanswer hadvance

/-! ### The decimal text (R192) -/

/-- R192: every text of a number has a digit. -/
theorem IsDecimal.length_pos {bs : List Byte} {n : Nat} (h : IsDecimal bs n) : 1 ≤ bs.length := by
  obtain ⟨-, -, -, hne⟩ := h
  exact List.length_pos_iff.mpr hne

/-- R192: one digit is the text of its number, `0` included. -/
theorem isDecimal_digitByte {d : Nat} (h : d < 10) : IsDecimal [digitByte d] d := by
  have hd := digitByte_toNat h
  refine ⟨fun b hb => ?_, by simp [hd], fun hzero => ?_, by simp⟩
  · rw [List.mem_singleton.mp hb, hd]
    omega
  · rw [List.head?_cons, Option.some.injEq] at hzero
    rw [hzero]

/-- R192: a digit after the text of a positive number makes the text of ten times the number and the digit. That text
does not begin with `0`, since `0` would be all of it. -/
theorem IsDecimal.append_digitByte {bs : List Byte} {m d : Nat} (h : IsDecimal bs m) (hm : 0 < m) (hd : d < 10) :
    IsDecimal (bs ++ [digitByte d]) (m * 10 + d) := by
  obtain ⟨hrange, hvalue, hlead, hne⟩ := h
  obtain ⟨hdrange, -⟩ := isDecimal_digitByte hd
  refine ⟨fun b hb => (List.mem_append.mp hb).elim (hrange b) (hdrange b), ?_, fun hzero => ?_, by simp⟩
  · rw [List.foldl_append, hvalue]
    simp [digitByte_toNat hd]
  · rw [List.head?_append_of_ne_nil _ hne] at hzero
    rw [hlead hzero] at hvalue
    exact absurd hvalue.symm hm.ne'

/-- R192: with a place for each of its digits, a number has its decimal text. -/
theorem isDecimal_digits (fuel : Nat) {n : Nat} (h : n < 10 ^ (fuel + 1)) : IsDecimal (digits (fuel + 1) n) n := by
  induction fuel generalizing n with
  | zero =>
    have hn : n < 10 := h
    rw [digits_small hn]
    exact isDecimal_digitByte hn
  | succ fuel ih =>
    by_cases hn : n < 10
    · rw [digits_small hn]
      exact isDecimal_digitByte hn
    · have hquot : n / 10 < 10 ^ (fuel + 1) := Nat.div_lt_of_lt_mul (by rwa [pow_succ'] at h)
      have htext := (ih hquot).append_digitByte (by omega) (Nat.mod_lt n (by decide))
      rwa [Nat.div_add_mod' n 10, ← digits_large hn] at htext

/-- R192: the digits take no more bytes than there are places. -/
theorem length_digits_le (fuel n : Nat) : (digits fuel n).length ≤ fuel := by
  induction fuel generalizing n with
  | zero => exact Nat.le_refl 0
  | succ fuel ih =>
    by_cases hn : n < 10
    · rw [digits_small hn]
      exact Nat.succ_le_succ (Nat.zero_le fuel)
    · rw [digits_large hn, List.length_append]
      exact Nat.succ_le_succ (ih (n / 10))

/-- D6: a number that is not negative has no sign. -/
theorem dec_of_nonneg {n : Int} (h : 0 ≤ n) : dec n = digits 10 n.toNat := by
  rw [dec, if_neg (Int.not_lt.mpr h), show n.natAbs = n.toNat by omega]

/-- D6: a negative number is its sign and the digits of its magnitude. -/
theorem dec_of_neg {n : Int} (h : n < 0) : dec n = 0x2D#8 :: digits 10 (-n).toNat := by
  rw [dec, if_pos h, show n.natAbs = (-n).toNat by omega]

/-- Settles O28: the magnitude of a 32-bit number has at most ten digits, and the sign is one more byte. -/
theorem decimalTextIsSignAndDigits : Obligations.DecimalTextIsSignAndDigits := by
  intro n hlo hhi
  rcases lt_or_ge n 0 with hneg | hpos
  · have hdigits : IsDecimal (digits 10 (-n).toNat) (-n).toNat := isDecimal_digits 9 (by omega)
    have hlen := length_digits_le 10 (-n).toNat
    rw [dec_of_neg hneg, List.length_cons]
    exact ⟨fun h => absurd h (by omega), fun _ => ⟨_, rfl, hdigits⟩, by omega, by omega⟩
  · have hdigits : IsDecimal (digits 10 n.toNat) n.toNat := isDecimal_digits 9 (by omega)
    have hlen := length_digits_le 10 n.toNat
    rw [dec_of_nonneg hpos]
    exact ⟨fun _ => hdigits, fun h => absurd h (by omega), hdigits.length_pos, by omega⟩

/-! ### The frame of the output instructions and of halt -/

/-- R190, R191, R210: the effect of halt is none, that of an output instruction an accepted write request. -/
theorem EffectOf.eq_or_sent {s u : State} {i : Instr} {len : Nat} {sig : Signal} {r : Byte}
    (h : EffectOf s i len sig u) (hi : i = .out r ∨ i = .outNumber r ∨ i = .halt) :
    u = s ∨ i ≠ .halt ∧ ∃ later bytes, u = s.sent later bytes := by
  rcases hi with rfl | rfl | rfl
  · cases h with
    | sentChar => exact .inr ⟨nofun, _, _, rfl⟩
  · cases h with
    | sentNumber => exact .inr ⟨nofun, _, _, rfl⟩
  · cases h with
    | halted => exact .inl rfl

/-- Settles O35: an accepted write request writes no register and no byte, and the end of the step writes `x[0]`
alone. -/
theorem outputAndHaltFrame : Obligations.OutputAndHaltFrame := by
  intro s t r i hi hx
  obtain ⟨len, sig, u, hu, hf⟩ := exec_eq_next hx
  obtain ⟨-, -, hreg, hcfg, hmem, hsink, houtput, -⟩ := finish_eq_next hf
  have hregs : SameRegsBut [0] u t := fun q hq => hreg q (by simpa using hq)
  have hbytes : SameBytes u t := fun a => congrArg (Memory.read · a) hmem
  rcases hu.eq_or_sent hi with rfl | ⟨hne, later, bytes, rfl⟩
  · exact ⟨hregs, hbytes, hcfg, ⟨[], by rw [houtput, List.append_nil]⟩, fun _ => ⟨hcfg, hsink, houtput⟩⟩
  · exact ⟨hregs, hbytes, hcfg, ⟨bytes, houtput⟩, fun h => absurd h hne⟩

end Sys2Proof.Machine

/-! ## Halt, and the run that stands at one -/

namespace Sys2Proof.Machine

/-- Settles O27: halt is the end of the cycle alone, with the halt signal. -/
theorem haltOnlyAdvancesAndSignals : Obligations.HaltOnlyAdvancesAndSignals := by
  intro s hadvance
  rw [exec, execHalt]
  exact finish_onlyAdvanced .halt hadvance

/-- R110, R111: a run whose first step halts is safe: without fuel it has not begun, with any it succeeds. -/
theorem safeRun_of_halt {s t : State} (h : step s = .next t) (hs : t.signal = .halt) : SafeRun s := by
  intro fuel
  cases fuel with
  | zero => exact .inr ⟨s, rfl⟩
  | succ fuel => exact .inl ⟨t, run_of_halt fuel h hs⟩

/-- Settles O51: the first step completes, halts, and is therefore the whole run. -/
theorem aRunAtAHaltSucceedsAtOnce : Obligations.ARunAtAHaltSucceedsAtOnce := by
  intro s hcfg hholds
  obtain ⟨t, hstep, hadvanced⟩ := step_halt_onlyAdvanced hcfg hholds
  have hsignal : t.signal = .halt := by
    obtain ⟨-, -, -, -, hsignal⟩ := hadvanced
    exact hsignal
  exact ⟨fun fuel => ⟨t, run_of_halt fuel hstep hsignal, hadvanced⟩, safeRun_of_halt hstep hsignal⟩

end Sys2Proof.Machine

/-! ## The errors a step can raise, and the sink -/

namespace Sys2Proof.Machine

/-- R104 to R106, R303 to R305, R324: the faults an instruction can end in once it has been fetched. -/
inductive ExecRaises : Fault → Prop where
  | noReg (index : Nat) : ExecRaises (.noReg index)
  | noMem (addr : Word) : ExecRaises (.noMem addr)
  | outputError (received : List Byte) : ExecRaises (.outputError received)
  | sinkNeverAnswers : ExecRaises .sinkNeverAnswers
  | ipOverflow (ip : Word) : ExecRaises (.ipOverflow ip)

theorem execRaises_of_exec_eq_fault {i : Instr} {s : State} {f : Fault} (h : exec i s = .fault f) : ExecRaises f := by
  obtain (⟨-, rfl⟩ | ⟨-, ⟨addr, rfl⟩ | ⟨bytes, rfl⟩ | rfl⟩) | ⟨_, _, u, -, rfl, -⟩ := exec_eq_fault h
  · exact .noReg _
  · exact .noMem addr
  · exact .outputError bytes
  · exact .sinkNeverAnswers
  · exact .ipOverflow u.ip

/-- R102, R302: in memory, a fetch raises `WrongInstruction` exactly for the byte at the instruction pointer, when the
format table gives it no length. -/
theorem fetch_eq_wrongInstruction_iff {s : State} {x : Byte} (hm : s.ip.toNat < s.cfg.memSize) :
    fetch s = .error (.wrongInstruction x) ↔ x = s.byte s.ip.toNat ∧ opcodeLength x = none := by
  constructor
  · intro h
    cases hop : opcodeLength (s.byte s.ip.toNat) with
    | none =>
      rw [fetch_of_illegal hm hop] at h
      cases h
      exact ⟨rfl, hop⟩
    | some n =>
      obtain ⟨tail, htail, -⟩ := fetchBytes_cons hm
      rw [fetch_inMemory hm, htail] at h
      obtain ⟨_, _, _, -, -, -, hd⟩ | ⟨-, hd⟩ := decode_of_legal hop tail <;> rw [hd] at h <;> exact nomatch h
  · rintro ⟨rfl, hop⟩
    exact fetch_of_illegal hm hop

/-- R302: a step raises `WrongInstruction` in its fetch alone. -/
theorem step_eq_wrongInstruction_iff {s : State} {x : Byte} :
    step s = .fault (.wrongInstruction x) ↔ fetch s = .error (.wrongInstruction x) := by
  refine ⟨fun h => ?_, step_of_fetch_error⟩
  obtain hfetch | ⟨i, -, hx⟩ := step_eq_fault h
  · exact hfetch
  · exact nomatch execRaises_of_exec_eq_fault hx

/-- Settles O16: only the fetch raises the error, and the bytes without a length are 0 and those from 9 on. -/
theorem illegalOpcodeEndsTheStep : Obligations.IllegalOpcodeEndsTheStep := by
  intro s x hm
  rw [step_eq_wrongInstruction_iff, fetch_eq_wrongInstruction_iff hm, opcodeLength_eq_none]

/-- R50, R320: an effect that reaches the sink is that of an output instruction. -/
theorem EffectOf.output_of_sink_ne {s u : State} {i : Instr} {len : Nat} {sig : Signal} (h : EffectOf s i len sig u)
    (hne : u.output ≠ s.output ∨ u.sink ≠ s.sink) : ∃ r, i = .out r ∨ i = .outNumber r := by
  cases h with
  | sentChar r => exact ⟨regByte r, .inl rfl⟩
  | sentNumber r => exact ⟨regByte r, .inr rfl⟩
  | moved | notMoved | stored | loaded | immediate | subtracted | halted =>
    exact hne.elim (absurd rfl) (absurd rfl)

/-- Settles O39: the end of the step leaves the sink alone, so the effect reached it, and the instruction's opcode byte
stands at the instruction pointer. -/
theorem onlyOutputInstructionsReachTheSink : Obligations.OnlyOutputInstructionsReachTheSink := by
  intro s t hstep hne
  obtain ⟨i, len, sig, u, hh, hu, hf⟩ := step_effect hstep
  obtain ⟨-, -, -, -, -, hsink, houtput, -⟩ := finish_eq_next hf
  rw [houtput, hsink] at hne
  obtain ⟨r, rfl | rfl⟩ := hu.output_of_sink_ne hne
  · exact .inl (holdsAt_encode hh rfl).1
  · exact .inr (holdsAt_encode hh rfl).1

theorem exec_ne_refused (i : Instr) (s : State) (r : Refusal) : exec i s ≠ .refused r := by
  intro h
  obtain ⟨len, sig, u, -, he⟩ | ⟨f, he, -⟩ := exec_cases i s
  · obtain ⟨-, hf⟩ | ⟨-, -, hf⟩ := finish_cases len sig u <;> rw [he, hf] at h <;> exact nomatch h
  · rw [he] at h
    exact nomatch h

theorem step_ne_refused (s : State) (r : Refusal) : step s ≠ .refused r := by
  cases hfetch : fetch s with
  | ok i =>
    rw [step_of_fetch_ok hfetch]
    exact exec_ne_refused i s r
  | error f =>
    rw [step_of_fetch_error hfetch]
    exact nofun

/-- Settles O43: neither the fetch nor the instruction fetched raises one of these errors, and no instruction is
refused. -/
theorem stepRaisesOnlyReachableErrors : Obligations.StepRaisesOnlyReachableErrors := by
  refine fun s => ⟨fun f h => ?_, step_ne_refused s⟩
  obtain hfetch | ⟨i, -, hx⟩ := step_eq_fault h
  · obtain rfl | rfl | ⟨addr, rfl⟩ := fetch_eq_error hfetch <;> exact ⟨nofun, nofun, nofun, nofun⟩
  · cases execRaises_of_exec_eq_fault hx <;> exact ⟨nofun, nofun, nofun, nofun⟩

/-! ### The write request that the sink refuses or never answers -/

section WriteRequest

variable {s : State} {r : Reg} {f : Fault}

/-- R105, R190: an out whose write request fails ends in the fault of the request. -/
theorem exec_out_of_emit_fault (h : emit (charBytes s.cfg.outByteEncoding (low8 (s.reg r))) s = .fault f) :
    exec (.out (regByte r)) s = .fault f := by
  rw [exec, execOut_regs, h, andThen_fault]

/-- R105, R191: an out-number whose write request fails ends in the fault of the request. -/
theorem exec_outNumber_of_emit_fault (h : emit (dec (signed32 (s.reg r))) s = .fault f) :
    exec (.outNumber (regByte r)) s = .fault f := by
  rw [exec, execOutNumber_regs, h, andThen_fault]

end WriteRequest

/-- Settles O31: the sink's next answer is `fail`, having kept the first part of either string. -/
theorem refusedOutputIsAnOutputError : Obligations.RefusedOutputIsAnOutputError := by
  intro s r kept hsink
  have hanswer : s.sink.answer = .fail kept := by rw [hsink, Sink.answer]
  exact ⟨exec_out_of_emit_fault (emit_fail _ hanswer), exec_outNumber_of_emit_fault (emit_fail _ hanswer)⟩

/-- Settles O32: the sink gives no answer to either string. -/
theorem unansweredOutputIsStuck : Obligations.UnansweredOutputIsStuck := by
  intro s r hsink
  have hanswer : s.sink.answer = .never := by rw [hsink, Sink.answer]
  exact ⟨exec_out_of_emit_fault (emit_never _ hanswer), exec_outNumber_of_emit_fault (emit_never _ hanswer)⟩

end Sys2Proof.Machine

/-! ## The machine that construction makes -/

namespace Sys2Proof.Machine

/-- R35: a buffer copied into zero-filled memory is read back from address 0 on. -/
theorem Memory.read_writeBytes_nil_of_lt {bytes : List Byte} {i : Nat} (h : i < bytes.length) :
    (Memory.writeBytes [] 0 bytes).read i = bytes[i] := by
  simpa only [Nat.zero_add] using Memory.read_writeBytes_inside bytes [] 0 i h

/-- R35, R400: past a buffer copied into zero-filled memory, memory still reads 0. -/
theorem Memory.read_writeBytes_nil_of_le {bytes : List Byte} {i : Nat} (h : bytes.length ≤ i) :
    (Memory.writeBytes [] 0 bytes).read i = 0#8 :=
  Memory.read_writeBytes_outside bytes [] 0 i (.inr (by rwa [Nat.zero_add]))

/-- Settles O1: the machine made from a buffer that fits is reset with the parameters replaced and the buffer copied
into empty memory, so its registers are reset's and its bytes are read off the copy. -/
theorem constructionCopiesTheBuffer : Obligations.ConstructionCopiesTheBuffer := by
  refine fun cfg bytes => ⟨fun hfits => ?_, construct_of_lt⟩
  exact ⟨_, construct_of_le hfits, rfl, State.reset_reg, fun _ => Memory.read_writeBytes_nil_of_lt,
    fun _ hpast _ => Memory.read_writeBytes_nil_of_le hpast⟩

end Sys2Proof.Machine
